-- ==== Sys2Proof/Word.lean ====
section
/-!
DEFINITION. The number types of the block and the fixed constants of 00_scope.md rules R6, R7 and R8.
-/

namespace Sys2Proof

/-- A byte, `byte[7:0]` (R7). -/
abbrev Byte := BitVec 8

/-- A 32-bit unsigned number: command words, channel `A`, rates in Hz, frame counters. -/
abbrev Word := BitVec 32

/-- A finite byte sequence, offset 0 first on the wire (R8). -/
abbrev Bytes := List Byte

/-- The sample-rate ROM's shape: 32 entries, each reserved (`none`) or a 20-bit rate (R24, R100). -/
abbrev Rom := Vector (Option (BitVec 20)) 32

/-- `TAG_LEN` (R6). -/
abbrev tagLen : Nat := 4

/-- `REGION_LEN` (R6). -/
abbrev regionLen : Nat := 24

/-- `HDR_LEN`, the tag and the structured region together (R6). -/
abbrev hdrLen : Nat := tagLen + regionLen

/-- `NAME_LEN` (R6). -/
abbrev nameLen : Nat := 16

/-- `ROM_DEPTH` (R6). -/
abbrev romDepth : Nat := 32

/-- `ROM_DEFINED`: indices below it have a rate (R6). -/
abbrev romDefined : Nat := 21

/-- `zeros(n)` (R8). -/
abbrev zeros (n : Nat) : Bytes := List.replicate n 0

end Sys2Proof
end

