-- ==== Sys2Proof/Syntax.lean ====
section
/-!
DEFINITION. The Header record, the five commands, and what is presented on the command port
(10_state.md rule R31, 30_encoding.md rules R70 to R72).
-/

namespace Sys2Proof

/-- The Header record (R31). Field names are the spec's. -/
structure Header where
  /-- `subProtocolBits` -/
  sp : Byte
  /-- `sampleRateIndex` -/
  sri : BitVec 5
  /-- `sampleRateHz` -/
  hz : Word
  /-- `samplesPerFrameRaw` -/
  spf : Byte
  /-- `formatByte2` -/
  fb2 : Byte
  /-- `formatByte3` -/
  fb3 : Byte
  /-- `streamName` -/
  name : Bytes
  /-- `frameCounter` -/
  fc : Word
  deriving DecidableEq, Repr

/-- The Header whose fields are all 0 and whose name is empty: what a field left out of the
assembler's braces holds (R80). -/
abbrev Header.zero : Header :=
  { sp := 0, sri := 0, hz := 0, spf := 0, fb2 := 0, fb3 := 0, name := [], fc := 0 }

/-- A command with its operands: a legal command word and the channels its opcode reads (R72). -/
inductive Instr where
  /-- `LKHZ`: the rate of an index (R105). -/
  | lkhz (idx : BitVec 5)
  /-- `LKIDX`: the index of a rate (R106). -/
  | lkidx (hz : Word)
  /-- `DECODE`: parse a packet header (R120). -/
  | decode (buf : Bytes)
  /-- `ENCODE`: serialize a header and a payload (R127). -/
  | encode (h : Header) (payload : Bytes)
  /-- `OBSERVE`: check a frame counter against the last one of its key (R150). -/
  | observe (h : Header)
  deriving DecidableEq, Repr

/-- What a caller presents on the command port: a 32-bit command word and the three operand
channels (R70, R72). -/
structure Command where
  word : Word
  /-- channel `A` -/
  a : Word
  /-- channel `H` -/
  h : Header
  /-- channel `B` -/
  b : Bytes
  deriving DecidableEq, Repr

/-- What reaches the block from outside: a presented command, or a change of the reset input's
level (R200). -/
inductive Input where
  | command (c : Command)
  /-- The reset input is driven to this level: `true` asserts reset, `false` releases it. -/
  | reset (asserted : Bool)
  deriving DecidableEq, Repr

/-- A Header as a caller with unbounded numbers would write it, before the boundary of R170. -/
structure RawHeader where
  sp : Nat
  sri : Nat
  hz : Nat
  spf : Nat
  fb2 : Nat
  fb3 : Nat
  name : List Nat
  fc : Nat
  deriving DecidableEq, Repr

/-- The raw Header with every field 0 and an empty name (R80). -/
abbrev RawHeader.zero : RawHeader :=
  { sp := 0, sri := 0, hz := 0, spf := 0, fb2 := 0, fb3 := 0, name := [], fc := 0 }

/-- A command as a caller with unbounded numbers would write it (R170). -/
structure RawCommand where
  word : Nat
  a : Nat
  h : RawHeader
  b : List Nat
  deriving DecidableEq, Repr

end Sys2Proof
end

