-- ==== Sys2Proof/Config.lean ====
section
/-!
DEFINITION. The block's parameters (00_scope.md rule R5) as plain data, this hardware's values of
them, and the two constants without a body that the spec leaves open.
-/

namespace Sys2Proof

/-- `P_SP_FORM`: how DECODE returns the sub-protocol tag (R63). -/
inductive SpForm where
  | inplace
  | shifted
  deriving DecidableEq, Repr

/-- `P_NAME_HIGHBIT`: whether DECODE clears bit 7 of the name's bytes (R66). -/
inductive NameHighbit where
  | keep
  | clear
  deriving DecidableEq, Repr

/-- `P_KEYFN`, as plain data that `Machine.keyOf` interprets (R5, R26). DESIGN CHOICE, log entry 4. -/
inductive KeyFn where
  /-- The constant function to the single key `K0`: this hardware's. -/
  | constK0
  /-- One key for each stream name. -/
  | streamName
  /-- Any other function of the Header: the `n`-th one of `Config.otherKey`. -/
  | other (n : Nat)
  deriving DecidableEq, Repr

/-- The parameters of rule R5. They are fixed for the life of an instance (R29). -/
structure Config where
  /-- `P_TAG` -/
  tag : Vector Byte 4
  /-- `P_MAX_PAYLOAD` -/
  maxPayload : Nat
  /-- `P_SP_FORM` -/
  spForm : SpForm
  /-- `P_TRIM_SET` -/
  trimSet : List Byte
  /-- `P_NAME_HIGHBIT` -/
  nameHighbit : NameHighbit
  /-- `P_KEYFN` -/
  keyFn : KeyFn
  deriving DecidableEq, Repr

/-- `P_MAX_PAYLOAD` of an instance: OPEN (92_eei_decisions.md D6), so a constant with no body. Log entry 3. -/
opaque Config.openMaxPayload : Nat

/-- Key functions the spec allows but does not give (R5): constants with no body. Log entry 4. -/
opaque Config.otherKey : Nat → Header → Nat

/-- `P_TRIM_SET` of this hardware: 0x00 to 0x1F, and 0x7F (R5). -/
def Config.controlBytes : List Byte :=
  (List.range 32).map (BitVec.ofNat 8) ++ [0x7F]

/-- This hardware's parameters (R5). The tag is the default instance, PRESUMED: log entry 2. The
three codec choices are the spec's own: log entry 15. -/
def Config.hardware : Config where
  tag := #v[0x56, 0x42, 0x41, 0x4E]
  maxPayload := Config.openMaxPayload
  spForm := .inplace
  trimSet := Config.controlBytes
  nameHighbit := .keep
  keyFn := .constK0

end Sys2Proof
end

