-- ==== Sys2Proof/Machine/Rom.lean ====
section
/-!
DEFINITION. The sample-rate ROM's contents and its two lookups (40_sample_rate_rom.md rules R100 to
R104). The lookups read the ROM they are given, so that they are the same for every state.
-/

namespace Sys2Proof.Machine

/-- The ROM contents (R101): 21 rates at indices 0 to 20, and 11 reserved entries. -/
def romContents : Rom :=
  #v[ some 6000, some 12000, some 24000, some 48000, some 96000, some 192000, some 384000,
      some 8000, some 16000, some 32000, some 64000, some 128000, some 256000, some 512000,
      some 11025, some 22050, some 44100, some 88200, some 176400, some 352800, some 705600,
      none, none, none, none, none, none, none, none, none, none, none ]

/-- `indexToHz` (R102): the entry of an index, zero-extended to 32 bits. -/
def indexToHz (rom : Rom) (i : BitVec 5) : Option Word :=
  (rom[i.toNat]'i.isLt).map (·.setWidth 32)

/-- The loop of R103 over the entries from number `i` on. -/
def searchRate (hz : Word) : List (Option (BitVec 20)) → Nat → Option (BitVec 5)
  | [], _ => none
  | some v :: rest, i =>
    if v.setWidth 32 = hz then some (BitVec.ofNat 5 i) else searchRate hz rest (i + 1)
  | none :: rest, i => searchRate hz rest (i + 1)

/-- `hzToIndex` (R103): the first index, in increasing order, whose entry holds exactly this rate. -/
def hzToIndex (rom : Rom) (hz : Word) : Option (BitVec 5) := searchRate hz rom.toList 0

end Sys2Proof.Machine
end

