-- ==== Sys2Proof/Machine/State.lean ====
section
/-!
DEFINITION. The state of the block (10_state.md rule R20), the records that leave it (rules R32 and
R33), the faults and refusals, and the state after reset (rule R28, 70_reset_and_hazards.md R200).
-/

namespace Sys2Proof.Machine

/-- The fault reasons (60_exceptions.md R173). A fault is TAKEN: the step answers a next state whose
fault mark is set and whose output names the fault (log entry 7). -/
inductive Fault where
  /-- `FAULT_ILLEGAL_COMMAND`: taken by a command word that R74 makes illegal; records the word. Safe:
  the block gives such a word no meaning and takes no further command. -/
  | illegalCommand (word : Word)
  /-- `FAULT_TRUNCATED_INPUT`: taken by DECODE of a buffer shorter than 28 bytes (R121); records the
  buffer's length. Safe: no field of such a buffer is given a value. -/
  | truncatedInput (length : Nat)
  deriving DecidableEq, Repr

/-- The refusals. Operand values outside a width never reach the block: `RawCommand.toCommand` refuses
them at the boundary (R170). -/
inductive Refusal where
  /-- An instruction with no meaning yet, by its mnemonic. No arm of `exec` raises it. Safe. -/
  | notModelled (mnemonic : String)
  deriving DecidableEq, Repr

/-- The diagnostic event of an OBSERVE (R32). -/
inductive Diag where
  /-- `NONE` -/
  | none
  /-- `INFO(gap)` -/
  | info (gap : Word)
  /-- `ANOMALY(prev, cur)` -/
  | anomaly (prev cur : Word)
  deriving DecidableEq, Repr

/-- The response of a command that does not fault (R33). -/
structure Response where
  status : BitVec 8
  valid : Bool
  value : Word
  hdr : Option Header
  out : Option Bytes
  diag : Diag
  deriving DecidableEq, Repr

/-- What the block gives back for an accepted command: a response, or the fault it took (R170). -/
inductive Result where
  | response (r : Response)
  | fault (f : Fault)
  deriving DecidableEq, Repr

/-- The validator's entries: the keys that have one, each with its last counter (R25). In canonical
form (`Trk.wf`): keys strictly rising. A key that is not listed has the entry `none`. -/
abbrev Trk := List (Nat × Word)

/-- The canonical form: keys strictly rising, and no entry holds 0 (R28). -/
abbrev Trk.wf (t : Trk) : Prop :=
  t.Pairwise (fun x y => x.1 < y.1) ∧ ∀ e ∈ t, e.2 ≠ 0

/-- The state of the block: the triple of R20, the parameters and ports the model carries beside it. -/
structure State where
  /-- The parameters of R5, which no step writes (R29; log entry 1). -/
  params : Config
  /-- The sample-rate ROM (R24). -/
  rom : Rom
  /-- The validator's entries (R25). -/
  trk : Trk
  /-- The fault mark (R27). -/
  faulted : Bool
  /-- The reset input is asserted (R200). -/
  inReset : Bool
  /-- What is presented to the block, next first (R50; log entry 5). -/
  inputs : List Input
  /-- What the block gave back for the input it took last: `none` if that was no accepted command
  (log entry 8). -/
  output : Option Result
  deriving DecidableEq, Repr

/-- The block after reset (R28, R200, R201): no validator entry, no fault, the ROM as manufactured,
idle with nothing presented. -/
def State.reset : State where
  params := Config.hardware
  rom := romContents
  trk := []
  faulted := false
  inReset := false
  inputs := []
  output := none

end Sys2Proof.Machine
end

