-- ==== Sys2Proof/Machine/Flags.lean ====
section
/-!
DEFINITION. The per-command status and diagnostic computations: the status codes of 60_exceptions.md
rule R171, the response a command starts from (10_state.md rule R33), and the event of OBSERVE
(42_sequence_validator.md rule R150). The block has no flags that persist (R23).
-/

namespace Sys2Proof.Machine

/-- `OK` (R171). -/
def statusOk : BitVec 8 := 0

/-- `ERR_INVALID_SAMPLE_RATE` (R171, R123). -/
def statusInvalidSampleRate : BitVec 8 := 1

/-- `ERR_UNSUPPORTED_SAMPLE_RATE` (R171, R129). -/
def statusUnsupportedSampleRate : BitVec 8 := 2

/-- A response whose other fields are those a command does not name (R33). -/
def responseOf (status : BitVec 8) : Response :=
  { status := status, valid := false, value := 0, hdr := none, out := none, diag := .none }

/-- The response of a lookup (R105, R106): a hit gives its value, a miss `valid = 0` and `value = 0`. -/
def lookupResponse (r : Option Word) : Response :=
  match r with
  | some v => { responseOf statusOk with valid := true, value := v }
  | none => responseOf statusOk

/-- The event of a non-zero counter `c` against the entry `e` (R150, R152). -/
def diagOf (e : Option Word) (c : Word) : Diag :=
  match e with
  | none => .none
  | some p => if c < p then .anomaly p c else .info (c - p)

end Sys2Proof.Machine
end

