-- ==== Sys2Proof/Decode.lean ====
section
/-!
DEFINITION. The command decoder and the encoder (30_encoding.md rules R70 to R74 and R79). The
decoder is total: a command word is one legal command or is rejected by name.
-/

namespace Sys2Proof

/-- What the decoder makes of a presented command (R79). -/
inductive Decoded where
  /-- The word is legal and names this command. -/
  | legal (i : Instr)
  /-- The word is illegal (R74). -/
  | illegal (word : Word)
  deriving DecidableEq, Repr

/-- `OPC`, bits 7:0 of a command word (R70). -/
def opcField (w : Word) : BitVec 8 := w.extractLsb' 0 8

/-- `IDX`, bits 12:8 of a command word (R70). -/
def idxField (w : Word) : BitVec 5 := w.extractLsb' 8 5

/-- `RSV`, bits 31:13 of a command word (R70). -/
def rsvField (w : Word) : BitVec 19 := w.extractLsb' 13 19

/-- The command decoder. Only the word selects the operation; each opcode takes its operands from
the channels R72 lists for it. -/
def decodeCommand (c : Command) : Decoded :=
  if rsvField c.word ≠ 0 then .illegal c.word
  else if opcField c.word = 0x01 then .legal (.lkhz (idxField c.word))
  else if idxField c.word ≠ 0 then .illegal c.word
  else if opcField c.word = 0x02 then .legal (.lkidx c.a)
  else if opcField c.word = 0x03 then .legal (.decode c.b)
  else if opcField c.word = 0x04 then .legal (.encode c.h c.b)
  else if opcField c.word = 0x05 then .legal (.observe c.h)
  else .illegal c.word

/-- The command word of an instruction (R71). -/
def encodeWord : Instr → Word
  | .lkhz idx => 0x00000001#32 ||| (idx.setWidth 32 <<< 8)
  | .lkidx _ => 0x00000002
  | .decode _ => 0x00000003
  | .encode _ _ => 0x00000004
  | .observe _ => 0x00000005

/-- The command that presents an instruction: its word, its operands on the channels R72 lists, and
0 (or the empty sequence) on the channels it does not read. -/
def encodeCommand (i : Instr) : Command :=
  match i with
  | .lkhz _ => { word := encodeWord i, a := 0, h := Header.zero, b := [] }
  | .lkidx hz => { word := encodeWord i, a := hz, h := Header.zero, b := [] }
  | .decode buf => { word := encodeWord i, a := 0, h := Header.zero, b := buf }
  | .encode h payload => { word := encodeWord i, a := 0, h := h, b := payload }
  | .observe h => { word := encodeWord i, a := 0, h := h, b := [] }

/-- The command with this word and every channel 0: the reading of a table word whose operand
channels have no bits. -/
def commandOfWord (w : Nat) : Command :=
  { word := BitVec.ofNat 32 w, a := 0, h := Header.zero, b := [] }

/-- The instruction the decoder reads from a table word of `nbits` bits (all rows have 32; R78).
A number that is no 32-bit word is rejected. -/
def decodeTableWord (nbits w : Nat) : Option Instr :=
  if nbits ≤ 32 ∧ w < 2 ^ 32 then
    match decodeCommand (commandOfWord w) with
    | .legal i => some i
    | .illegal _ => none
  else none

end Sys2Proof
end

