-- ==== Sys2Proof/WellFormed.lean ====
section
/-!
DEFINITION. Which command words are legal, as the opcode table's rows of mask and match
(opcode_table.json, 30_encoding.md rules R71 and R74), and the boundary that refuses operand values
outside their field's width (60_exceptions.md rule R170, 92_eei_decisions.md D19). A term of `Instr`
has no ill-formed values: every field is typed at its width, and every legal word is one (R79, R132).
-/

namespace Sys2Proof

/-- One row of opcode_table.json. -/
structure OpcodeRow where
  mnemonic : String
  pattern : Word
  mask : Word
  deriving DecidableEq, Repr

/-- The opcode table (R71). -/
def opcodeTable : List OpcodeRow :=
  [ { mnemonic := "LKHZ", pattern := 0x00000001, mask := 0xFFFFE0FF },
    { mnemonic := "LKIDX", pattern := 0x00000002, mask := 0xFFFFFFFF },
    { mnemonic := "DECODE", pattern := 0x00000003, mask := 0xFFFFFFFF },
    { mnemonic := "ENCODE", pattern := 0x00000004, mask := 0xFFFFFFFF },
    { mnemonic := "OBSERVE", pattern := 0x00000005, mask := 0xFFFFFFFF } ]

/-- The word is one of this row's. -/
def OpcodeRow.accepts (r : OpcodeRow) (w : Word) : Bool := w &&& r.mask == r.pattern

/-- A legal command word: some row of the table accepts it. Every other word is illegal (R74). -/
def legalWord (w : Word) : Bool := opcodeTable.any (·.accepts w)

/-- The mnemonic of an instruction, as the table spells it. -/
def Instr.mnemonic : Instr → String
  | .lkhz _ => "LKHZ"
  | .lkidx _ => "LKIDX"
  | .decode _ => "DECODE"
  | .encode _ _ => "ENCODE"
  | .observe _ => "OBSERVE"

/-- Every number of a raw Header fits its field's width (R31). -/
def RawHeader.fits (h : RawHeader) : Bool :=
  decide (h.sp < 2 ^ 8) && decide (h.sri < 2 ^ 5) && decide (h.hz < 2 ^ 32) &&
  decide (h.spf < 2 ^ 8) && decide (h.fb2 < 2 ^ 8) && decide (h.fb3 < 2 ^ 8) &&
  h.name.all (fun b => decide (b < 2 ^ 8)) && decide (h.fc < 2 ^ 32)

/-- Every number of a raw command fits its channel's width (R70, R72). -/
def RawCommand.fits (r : RawCommand) : Bool :=
  decide (r.word < 2 ^ 32) && decide (r.a < 2 ^ 32) && r.h.fits &&
  r.b.all (fun b => decide (b < 2 ^ 8))

/-- The Header of in-range numbers. -/
def RawHeader.toHeader (h : RawHeader) : Header :=
  { sp := BitVec.ofNat 8 h.sp, sri := BitVec.ofNat 5 h.sri, hz := BitVec.ofNat 32 h.hz,
    spf := BitVec.ofNat 8 h.spf, fb2 := BitVec.ofNat 8 h.fb2, fb3 := BitVec.ofNat 8 h.fb3,
    name := h.name.map (BitVec.ofNat 8), fc := BitVec.ofNat 32 h.fc }

/-- The boundary: a command whose numbers all fit is admitted to the port, and any other is refused
(`none`), never given a meaning (R170, D19). -/
def RawCommand.toCommand (r : RawCommand) : Option Command :=
  if r.fits then
    some { word := BitVec.ofNat 32 r.word, a := BitVec.ofNat 32 r.a, h := r.h.toHeader,
           b := r.b.map (BitVec.ofNat 8) }
  else none

end Sys2Proof
end

