-- ==== Sys2Proof/Machine/Ops.lean ====
section
/-!
DEFINITION. The operations shared by the commands: the accesses to byte buffers (00_scope.md rule
R9), the validator's table (10_state.md rule R25), responding, taking a fault (60_exceptions.md rule
R174), accepting a command, and reset (70_reset_and_hazards.md rule R200).
-/

namespace Sys2Proof.Machine

/-- `s[i]`. Never read at or beyond the end: R121 guards every use (R8). -/
def byteAt (buf : Bytes) (i : Nat) : Byte := buf.getD i 0

/-- `MemRead(buf, off, n)` (R9). -/
def memRead (buf : Bytes) (off n : Nat) : Bytes := (buf.drop off).take n

/-- `MemWrite(out, off, n, v)`: the buffer with its bytes `off` to `off + n - 1` replaced by `v` (R9). -/
def memWrite (out : Bytes) (off n : Nat) (v : Bytes) : Bytes :=
  out.take off ++ v.take n ++ out.drop (off + n)

/-- `trk[k]` (R25). -/
def Trk.find : Trk → Nat → Option Word
  | [], _ => none
  | (k', v) :: rest, k => if k' = k then some v else Trk.find rest k

/-- `trk[k] <- some v`, keeping the keys in rising order. -/
def Trk.store : Trk → Nat → Word → Trk
  | [], k, v => [(k, v)]
  | (k', v') :: rest, k, v =>
    if k < k' then (k, v) :: (k', v') :: rest
    else if k = k' then (k, v) :: rest
    else (k', v') :: Trk.store rest k v

/-- The block takes commands: it holds no fault and reset is not asserted (R174, R200). -/
def State.accepts (s : State) : Bool := !s.faulted && !s.inReset

/-- Give a response: the only effect of a command on the port's output (R33). -/
def State.respond (s : State) (r : Response) : State := { s with output := some (.response r) }

/-- No response: what an input leaves that is no accepted command (R174, R200). -/
def State.silent (s : State) : State := { s with output := none }

/-- TAKING A FAULT (R174): no response, the fault mark set, every other state element as it was.
There is no saved pc, cause register or mode (R175); the port shows what the fault records (R173). -/
def State.takeFault (s : State) (f : Fault) : State :=
  { s with faulted := true, output := some (.fault f) }

/-- Every command's gate (R28): a block that takes no command is left as it is and gives nothing back. -/
def State.gate (s : State) (run : State → State) : State :=
  if s.accepts then run s else s.silent

/-- Write one validator entry (R150). -/
def State.track (s : State) (k : Nat) (c : Word) : State := { s with trk := s.trk.store k c }

/-- A command word the block gives no meaning (R74). -/
def State.illegalCommand (s : State) (w : Word) : State :=
  s.gate (fun s => s.takeFault (.illegalCommand w))

/-- Asserting reset (R200): the table is emptied and the fault mark cleared, the one way out of a
fault (R174); the ROM and the parameters stay. -/
def State.assertReset (s : State) : State :=
  { s with trk := [], faulted := false, inReset := true, output := none }

/-- Releasing reset (R200): the block is idle. -/
def State.releaseReset (s : State) : State := { s with inReset := false, output := none }

/-- The reset input is driven to a level (R200). -/
def State.driveReset (s : State) (asserted : Bool) : State :=
  if asserted then s.assertReset else s.releaseReset

/-- Nothing is presented: the block executes no step of its own (R180). -/
def State.idle (s : State) : State := s

/-- The state with these inputs still to come. -/
def State.withInputs (s : State) (rest : List Input) : State := { s with inputs := rest }

/-- A caller presents a command with unbounded numbers: refused at the boundary if one is outside its
width, else queued on the port behind what is already presented (R50, R170). -/
def State.present (s : State) (r : RawCommand) : Option State :=
  r.toCommand.map (fun c => { s with inputs := s.inputs ++ [.command c] })

end Sys2Proof.Machine
end

