-- ==== Sys2Proof/Machine/Operands.lean ====
section
/-!
DEFINITION. The field codecs of the wire header (30_encoding.md rules R61 to R69, 20_memory.md rule
R40) and the tracking key (00_scope.md rule R5).
-/

namespace Sys2Proof.Machine

/-- `UNPACK0`'s index: bits 4:0 of byte 0 (R62, R63). -/
def unpackSri (b : Byte) : BitVec 5 := b.extractLsb' 0 5

/-- `UNPACK0`'s sub-protocol tag, in the form the parameter names (R63). -/
def unpackSp (form : SpForm) (b : Byte) : Byte :=
  match form with
  | .inplace => b &&& 0xE0
  | .shifted => (b.extractLsb' 5 3).setWidth 8

/-- `PACK0` (R64). -/
def pack0 (idx : BitVec 5) (sp : Byte) : Byte := (idx.setWidth 8 &&& 0x1F) ||| (sp &&& 0xE0)

/-- `PADNAME` (R65). -/
def padName (name : Bytes) : Bytes :=
  name.take nameLen ++ zeros (nameLen - (name.take nameLen).length)

/-- The first loop of `TRIMNAME` (R66). -/
def nameBytes (p : NameHighbit) (raw : Bytes) : Bytes :=
  match p with
  | .keep => raw
  | .clear => raw.map (· &&& 0x7F)

/-- `TRIMNAME` (R66): the trailing run of bytes of the trim set is removed. -/
def trimName (p : Config) (raw : Bytes) : Bytes :=
  (nameBytes p.nameHighbit raw).rdropWhile (fun b => decide (b ∈ p.trimSet))

/-- `LE32` (R9, R40). -/
def le32 (b0 b1 b2 b3 : Byte) : Word :=
  b0.setWidth 32 ||| b1.setWidth 32 <<< 8 ||| b2.setWidth 32 <<< 16 ||| b3.setWidth 32 <<< 24

/-- `LE32bytes` (R9, R40). -/
def le32Bytes (v : Word) : Bytes :=
  [v.extractLsb' 0 8, v.extractLsb' 8 8, v.extractLsb' 16 8, v.extractLsb' 24 8]

/-- The payload field (R69, R131): at most `limit` bytes. An empty payload is itself whatever the
limit, which lets it be computed when the limit is open. -/
def takePayload (limit : Nat) (payload : Bytes) : Bytes :=
  match payload with
  | [] => []
  | b :: rest => (b :: rest).take limit

/-- A stream name as a key: the number whose base-256 digits are 1 and then the name's bytes, so that
different names have different keys. -/
def nameKey (name : Bytes) : Nat := name.foldl (fun k b => k * 256 + b.toNat) 1

/-- `P_KEYFN(h)` (R5, R26). `K0` is numbered 0. -/
def keyOf (f : KeyFn) (h : Header) : Nat :=
  match f with
  | .constK0 => 0
  | .streamName => nameKey h.name
  | .other n => Config.otherKey n h

end Sys2Proof.Machine
end

