-- ==== Sys2Proof/Machine/Codec.lean ====
section
/-!
DEFINITION. The header codec: the parser, the serializer, and the meanings of DECODE and ENCODE
(41_header_codec.md rules R120 and R127).
-/

namespace Sys2Proof.Machine

/-- The Header of a buffer of at least 28 bytes whose index has the rate `hz` (R120). -/
def parseHeader (p : Config) (hz : Word) (buf : Bytes) : Header :=
  { sp := unpackSp p.spForm (byteAt buf 4)
    sri := unpackSri (byteAt buf 4)
    hz := hz
    spf := byteAt buf 5
    fb2 := byteAt buf 6
    fb3 := byteAt buf 7
    name := trimName p (memRead buf 8 nameLen)
    fc := le32 (byteAt buf 24) (byteAt buf 25) (byteAt buf 26) (byteAt buf 27) }

/-- The response of DECODE past its length condition (R120, R123). -/
def decodeResponse (p : Config) (rom : Rom) (buf : Bytes) : Response :=
  match indexToHz rom (unpackSri (byteAt buf 4)) with
  | none => responseOf statusInvalidSampleRate
  | some hz => { responseOf statusOk with hdr := some (parseHeader p hz buf) }

/-- The packet ENCODE builds once the index is known (R127). -/
def buildPacket (p : Config) (idx : BitVec 5) (h : Header) (payload : Bytes) : Bytes :=
  p.tag.toList ++ [pack0 idx h.sp, h.spf, h.fb2, h.fb3] ++ padName h.name ++ le32Bytes h.fc ++
    takePayload p.maxPayload payload

/-- The response of ENCODE (R127, R129). -/
def encodeResponse (p : Config) (rom : Rom) (h : Header) (payload : Bytes) : Response :=
  match hzToIndex rom h.hz with
  | none => responseOf statusUnsupportedSampleRate
  | some idx => { responseOf statusOk with out := some (buildPacket p idx h payload) }

/-- DECODE (R120): the length condition comes first (R121, R177). -/
def execDecode (buf : Bytes) (s : State) : Host.Outcome State Fault Refusal :=
  .next (s.gate (fun s =>
    if buf.length < hdrLen then s.takeFault (.truncatedInput buf.length)
    else s.respond (decodeResponse s.params s.rom buf)))

/-- ENCODE (R127). -/
def execEncode (h : Header) (payload : Bytes) (s : State) : Host.Outcome State Fault Refusal :=
  .next (s.gate (fun s => s.respond (encodeResponse s.params s.rom h payload)))

end Sys2Proof.Machine
end

