-- ==== Sys2Proof/Machine/SampleRate.lean ====
section
/-!
DEFINITION. The meanings of LKHZ and LKIDX (40_sample_rate_rom.md rules R105 and R106).
-/

namespace Sys2Proof.Machine

/-- LKHZ (R105). -/
def execLkhz (idx : BitVec 5) (s : State) : Host.Outcome State Fault Refusal :=
  .next (s.gate (fun s => s.respond (lookupResponse (indexToHz s.rom idx))))

/-- LKIDX (R106): the index is zero-extended. -/
def execLkidx (hz : Word) (s : State) : Host.Outcome State Fault Refusal :=
  .next (s.gate (fun s => s.respond (lookupResponse ((hzToIndex s.rom hz).map (·.setWidth 32)))))

end Sys2Proof.Machine
end

