-- ==== Sys2Proof/Machine/Validator.lean ====
section
/-!
DEFINITION. The frame-sequence validator: the meaning of OBSERVE (42_sequence_validator.md rule R150).
-/

namespace Sys2Proof.Machine

/-- OBSERVE on a block that takes commands (R150): the zero early return (R151), else the event
against the key's entry and the entry's write. -/
def observeCounter (h : Header) (s : State) : State :=
  if h.fc = 0 then s.respond (responseOf statusOk)
  else
    (s.track (keyOf s.params.keyFn h) h.fc).respond
      { responseOf statusOk with diag := diagOf (s.trk.find (keyOf s.params.keyFn h)) h.fc }

/-- OBSERVE (R150). -/
def execObserve (h : Header) (s : State) : Host.Outcome State Fault Refusal :=
  .next (s.gate (observeCounter h))

end Sys2Proof.Machine
end

