-- ==== Sys2Proof/Machine/Dispatch.lean ====
section
/-!
DEFINITION. One arm for each command of opcode_table.json.
-/

namespace Sys2Proof.Machine

def exec (i : Instr) (s : State) : Host.Outcome State Fault Refusal :=
  match i with
  | .lkhz idx => Sys2Proof.Machine.execLkhz idx s
  | .lkidx hz => Sys2Proof.Machine.execLkidx hz s
  | .decode buf => Sys2Proof.Machine.execDecode buf s
  | .encode h payload => Sys2Proof.Machine.execEncode h payload s
  | .observe h => Sys2Proof.Machine.execObserve h s

end Sys2Proof.Machine
end

