-- ==== Sys2Proof/Machine/Step.lean ====
section
/-!
DEFINITION. One step: the block takes the next input (00_scope.md rule R10, 20_memory.md rule R50).
-/

namespace Sys2Proof.Machine

/-- One step. With nothing presented the block is idle (R180, R201); a change of the reset input acts
(R200); a presented command is decoded and executed, or is illegal (R74, R79). -/
def step (s : State) : Host.Outcome State Fault Refusal :=
  match s.inputs with
  | [] => .next s.idle
  | .reset level :: rest => .next ((s.withInputs rest).driveReset level)
  | .command c :: rest =>
    match decodeCommand c with
    | .legal i => exec i (s.withInputs rest)
    | .illegal w => .next ((s.withInputs rest).illegalCommand w)

/-- The state in which the command with this word, its channels 0, is presented next to a block that
takes commands (log entry 11). -/
def State.withFetchWord (s : State) (_nbits w : Nat) : State :=
  { s with faulted := false, inReset := false, inputs := .command (commandOfWord w) :: s.inputs }

end Sys2Proof.Machine
end

