-- ==== Sys2Proof/Machine/Assembler.lean ====
section
/-!
DEFINITION. The assembler syntax of 30_encoding.md rule R80: one line of text to the command it
writes, as numbers that `RawCommand.toCommand` then admits or refuses (R170). Text the rule gives no form
is rejected (`none`). What the rule leaves open is in log entry 13.
-/

namespace Sys2Proof.Machine

/-- The brace that opens a Header. -/
def openBrace : Char := Char.ofNat 0x7B

/-- The brace that closes a Header. -/
def closeBrace : Char := Char.ofNat 0x7D

/-- The value of a digit in a base up to 16, if the character is one. -/
def digitValue (base : Nat) (c : Char) : Option Nat :=
  let n := c.toNat
  let v :=
    if 0x30 ≤ n ∧ n ≤ 0x39 then n - 0x30
    else if 0x41 ≤ n ∧ n ≤ 0x46 then n - 0x41 + 10
    else if 0x61 ≤ n ∧ n ≤ 0x66 then n - 0x61 + 10
    else base
  if v < base then some v else none

/-- The number that digits write after the number `acc`. -/
def digitsValue (base : Nat) : Nat → List Char → Option Nat
  | acc, [] => some acc
  | acc, c :: cs => (digitValue base c).bind (fun d => digitsValue base (acc * base + d) cs)

/-- A number, in decimal or in `0x` hexadecimal. -/
def numberOf (token : List Char) : Option Nat :=
  match token with
  | '0' :: 'x' :: d :: ds => digitsValue 16 0 (d :: ds)
  | d :: ds => digitsValue 10 0 (d :: ds)
  | [] => none

/-- The text after its leading spaces. -/
def skipSpaces (cs : List Char) : List Char := cs.dropWhile (· == ' ')

/-- The text after this character, which must come next. -/
def expectChar (c : Char) (cs : List Char) : Option (List Char) :=
  match skipSpaces cs with
  | d :: rest => if d = c then some rest else none
  | [] => none

/-- The next run of letters and digits, and the text after it. -/
def nextToken (cs : List Char) : List Char × List Char :=
  ((skipSpaces cs).takeWhile Char.isAlphanum, (skipSpaces cs).dropWhile Char.isAlphanum)

/-- The next number, and the text after it. -/
def nextNumber (cs : List Char) : Option (Nat × List Char) :=
  (numberOf (nextToken cs).1).map (fun n => (n, (nextToken cs).2))

/-- A byte of two hexadecimal digits. -/
def hexByte (hi lo : Char) : Option Nat := digitsValue 16 0 [hi, lo]

/-- The bytes up to the closing bracket, and the text after it. -/
def bytesAfterBracket : List Char → Option (List Nat × List Char)
  | ']' :: rest => some ([], rest)
  | ' ' :: rest => bytesAfterBracket rest
  | hi :: lo :: rest =>
    (hexByte hi lo).bind (fun b => (bytesAfterBracket rest).map (fun r => (b :: r.1, r.2)))
  | _ => none

/-- A byte sequence in brackets, and the text after it. -/
def nextBytes (cs : List Char) : Option (List Nat × List Char) :=
  (expectChar '[' cs).bind bytesAfterBracket

/-- The name's bytes up to the closing quote, with `\xHH` escapes, and the text after it. -/
def nameAfterQuote : List Char → Option (List Nat × List Char)
  | '"' :: rest => some ([], rest)
  | '\\' :: 'x' :: hi :: lo :: rest =>
    (hexByte hi lo).bind (fun b => (nameAfterQuote rest).map (fun r => (b :: r.1, r.2)))
  | '\\' :: _ => none
  | c :: rest =>
    if c.toNat < 0x80 then (nameAfterQuote rest).map (fun r => (c.toNat :: r.1, r.2)) else none
  | [] => none

/-- A quoted name, and the text after it. -/
def nextName (cs : List Char) : Option (List Nat × List Char) :=
  (expectChar '"' cs).bind nameAfterQuote

/-- The raw Header with one numeric field set, if the field is one of R31 that may be written. -/
def setField (withSri : Bool) (h : RawHeader) (field : List Char) (n : Nat) : Option RawHeader :=
  if field = "sp".toList then some { h with sp := n }
  else if field = "hz".toList then some { h with hz := n }
  else if field = "spf".toList then some { h with spf := n }
  else if field = "fb2".toList then some { h with fb2 := n }
  else if field = "fb3".toList then some { h with fb3 := n }
  else if field = "fc".toList then some { h with fc := n }
  else if field = "sri".toList ∧ withSri then some { h with sri := n }
  else none

/-- One `field=value`, and the text after it. -/
def nextField (withSri : Bool) (h : RawHeader) (field cs : List Char) : Option (RawHeader × List Char) :=
  (expectChar '=' cs).bind (fun cs =>
    if field = "name".toList then (nextName cs).map (fun r => ({ h with name := r.1 }, r.2))
    else (nextNumber cs).bind (fun r => (setField withSri h field r.1).map (fun h => (h, r.2))))

/-- The fields up to the closing brace, each at most once, and the text after it. The first argument
bounds the number of fields. -/
def fieldsAfterBrace (withSri : Bool) :
    Nat → List (List Char) → RawHeader → List Char → Option (RawHeader × List Char)
  | 0, _, _, _ => none
  | fuel + 1, seen, h, cs =>
    let field := (nextToken cs).1
    if field ∈ seen then none
    else
      (nextField withSri h field (nextToken cs).2).bind (fun r =>
        match skipSpaces r.2 with
        | c :: rest =>
          if c = ',' then fieldsAfterBrace withSri fuel (field :: seen) r.1 rest
          else if c = closeBrace then some (r.1, rest)
          else none
        | [] => none)

/-- A Header in braces, and the text after it: a field left out is 0, a name left out is empty. -/
def nextHeader (withSri : Bool) (cs : List Char) : Option (RawHeader × List Char) :=
  (expectChar openBrace cs).bind (fun cs =>
    match expectChar closeBrace cs with
    | some rest => some (RawHeader.zero, rest)
    | none => fieldsAfterBrace withSri 8 [] RawHeader.zero cs)

/-- The value of a parse that must end the line. -/
def atEnd {α : Type} (r : α × List Char) : Option α := if skipSpaces r.2 = [] then some r.1 else none

/-- A raw command with this word and nothing on its channels. -/
def rawWord (w : Nat) : RawCommand := { word := w, a := 0, h := RawHeader.zero, b := [] }

/-- One line of assembler text. -/
def assembleLine (line : List Char) : Option RawCommand :=
  let op := (nextToken line).1
  let rest := (nextToken line).2
  if op = "LKHZ".toList then
    ((nextNumber rest).bind atEnd).bind (fun idx => if idx < 32 then some (rawWord (1 + idx * 256)) else none)
  else if op = "LKIDX".toList then
    ((nextNumber rest).bind atEnd).map (fun hz => { rawWord 2 with a := hz })
  else if op = "DECODE".toList then
    ((nextBytes rest).bind atEnd).map (fun buf => { rawWord 3 with b := buf })
  else if op = "ENCODE".toList then
    (nextHeader false rest).bind (fun r =>
      ((nextBytes r.2).bind atEnd).map (fun payload => { rawWord 4 with h := r.1, b := payload }))
  else if op = "OBSERVE".toList then
    ((nextHeader true rest).bind atEnd).map (fun h => { rawWord 5 with h := h })
  else none

/-- A program: one command a line. -/
def assembleProgram (text : List Char) : Option (List RawCommand) :=
  (text.splitOn '\n').mapM assembleLine

end Sys2Proof.Machine
end

