-- ==== Sys2Proof/Machine/Enumerations.lean ====
section
/-!
DEFINITION. The data-only enumerations the source lists (10_state.md rules R34 and R35). No command
takes, returns or interprets a value of them.
-/

namespace Sys2Proof.Machine

/-- The service/application types (R34). -/
inductive ServiceType where
  | unknown
  | receptor
  | transmitter
  | receptorSpot
  | transmitterSpot
  | virtualDevice
  | virtualMixer
  | matrix
  | daw
  | server
  deriving DecidableEq, Repr

/-- The constants of R34, a bitmask of roles. -/
def serviceCode : ServiceType → Word
  | .unknown => 0x0
  | .receptor => 0x1
  | .transmitter => 0x2
  | .receptorSpot => 0x4
  | .transmitterSpot => 0x8
  | .virtualDevice => 0x10
  | .virtualMixer => 0x20
  | .matrix => 0x40
  | .daw => 0x80
  | .server => 0x01000000

/-- The four sub-protocols the source names (R35). -/
inductive SubProtocol where
  | audio
  | serial
  | text
  | service
  deriving DecidableEq, Repr

/-- Their customary values in bits 7:5 of byte 0. PRESUMED: general knowledge, not in the source
(R35, log entry 16); no command depends on them. -/
def subProtocolTag : SubProtocol → BitVec 3
  | .audio => 0b000
  | .serial => 0b001
  | .text => 0b010
  | .service => 0b011

end Sys2Proof.Machine
end

