-- ==== Sys2Proof/Safety.lean ====
section
/-!
DEFINITION. The terms claims use: a ready block, the invariant of the block, the duties of a caller
(60_exceptions.md rule R182), runs, and the sample rates as the source lists them.
-/

namespace Sys2Proof.Machine

/-- The sample rates of R101 in index order: the rate of index `i`, 0 to 20, is entry `i`. -/
def sampleRates : List Nat :=
  [ 6000, 12000, 24000, 48000, 96000, 192000, 384000,
    8000, 16000, 32000, 64000, 128000, 256000, 512000,
    11025, 22050, 44100, 88200, 176400, 352800, 705600 ]

/-- The block takes the next command: no fault is recorded (R174) and reset is not asserted (R200). -/
abbrev State.Ready (s : State) : Prop := s.faulted = false ∧ s.inReset = false

/-- The block is quiescent: a fault is recorded and reset is not asserted (R174). -/
abbrev State.Quiescent (s : State) : Prop := s.faulted = true ∧ s.inReset = false

/-- A run has ended well: nothing is left to do and no fault is recorded. A quiescent block is not a
final state (R174). -/
abbrev State.Final (s : State) : Prop := s.inputs = [] ∧ s.Ready

/-- What holds in every state a run from reset reaches. -/
structure State.Inv (s : State) : Prop where
  /-- The ROM holds its fixed contents (R24, R101). -/
  rom : s.rom = romContents
  /-- The table is in canonical form and no entry holds 0 (R28). -/
  trk : s.trk.wf
  /-- With the constant key function only `K0` has an entry (R26). -/
  single : s.params.keyFn = .constK0 → ∀ e ∈ s.trk, e.1 = 0
  /-- While reset is asserted the table is empty, no fault is recorded and nothing is given back (R200). -/
  cleared : s.inReset = true → s.trk = [] ∧ s.faulted = false ∧ s.output = none
  /-- A fault given back is a fault recorded (R174). -/
  recorded : ∀ f, s.output = some (.fault f) → s.faulted = true
  /-- A response is given only by a block that holds no fault (R174), with a status of R171. -/
  answered : ∀ r, s.output = some (.response r) → s.faulted = false ∧ r.status.toNat ≤ 2

/-- The caller's duty in presenting a command (R182, R207): a legal word, and at least 28 bytes for
DECODE. -/
def dutifulCommand (c : Command) : Bool :=
  match decodeCommand c with
  | .legal (.decode buf) => decide (hdrLen ≤ buf.length)
  | .legal _ => true
  | .illegal _ => false

/-- Every input keeps the caller's duty; a change of the reset input has none. -/
def dutifulInput : Input → Bool
  | .command c => dutifulCommand c
  | .reset _ => true

/-- The input is one that the validator or the fault mark depends on: an OBSERVE or the reset input. -/
def reachesValidator : Input → Bool
  | .command c =>
    match decodeCommand c with
    | .legal (.observe _) => true
    | _ => false
  | .reset _ => true

/-- A command word R74 makes illegal, in the rule's own words: `OPC` is 0x00 or 0x06 to 0xFF, or a
bit that R71 fixes to 0 is 1 (bits 31:13 for LKHZ, bits 31:8 for the other opcodes). -/
abbrev illegalBits (w : Word) : Prop :=
  (w.extractLsb' 0 8).toNat = 0 ∨ 6 ≤ (w.extractLsb' 0 8).toNat ∨
    ((w.extractLsb' 0 8).toNat = 1 ∧ w.extractLsb' 13 19 ≠ 0) ∨
    (2 ≤ (w.extractLsb' 0 8).toNat ∧ w.extractLsb' 8 24 ≠ 0)

/-- `n` steps, stopping at the first that answers no next state. -/
def runSteps : Nat → State → Host.Outcome State Fault Refusal
  | 0, s => .next s
  | n + 1, s =>
    match step s with
    | .next t => runSteps n t
    | .fault f => .fault f
    | .refused r => .refused r

end Sys2Proof.Machine
end

