-- ==== Sys2Proof/Certificates/Slice0/Obligations.lean ====
section
/-!
DEFINITION. The statements about the model, each from the numbered rules its docstring names. They
hold for every value of the parameters of R5, since the parameters stand in the state.
-/

open Sys2Proof Sys2Proof.Machine

/-! ## The command interface -/

/-- 30_encoding.md R71, R74 and 95_test_vectors.md V7: words written out bit by bit. -/
def Obligations.TableWordsDecode : Prop :=
  decodeTableWord 32 0b00000000000000000001000000000001 = some (.lkhz 16) ∧
  decodeTableWord 32 0b00000000000000000001111100000001 = some (.lkhz 31) ∧
  decodeTableWord 32 0b00000000000000000000000000000010 = some (.lkidx 0) ∧
  decodeTableWord 32 0b00000000000000000000000000000011 = some (.decode []) ∧
  decodeTableWord 32 0b00000000000000000000000000000100 = some (.encode Header.zero []) ∧
  decodeTableWord 32 0b00000000000000000000000000000101 = some (.observe Header.zero) ∧
  decodeTableWord 32 0x00002001 = none ∧ decodeTableWord 32 0x80000001 = none ∧
  decodeTableWord 32 0x00000103 = none ∧ decodeTableWord 32 0x00000000 = none ∧
  decodeTableWord 32 0x00000006 = none ∧ decodeTableWord 32 0x000000FF = none

/-- R71: the legal command words and what each is, and every other word illegal. -/
def Obligations.LegalWordsAreTheAssignedOnes : Prop :=
  ∀ c : Command,
    (∀ idx : BitVec 5, c.word = 0x00000001#32 ||| (idx.setWidth 32 <<< 8) →
      decodeCommand c = .legal (.lkhz idx)) ∧
    (c.word = 0x00000002 → decodeCommand c = .legal (.lkidx c.a)) ∧
    (c.word = 0x00000003 → decodeCommand c = .legal (.decode c.b)) ∧
    (c.word = 0x00000004 → decodeCommand c = .legal (.encode c.h c.b)) ∧
    (c.word = 0x00000005 → decodeCommand c = .legal (.observe c.h)) ∧
    ((∀ idx : BitVec 5, c.word ≠ 0x00000001#32 ||| (idx.setWidth 32 <<< 8)) →
      c.word ≠ 0x00000002 → c.word ≠ 0x00000003 → c.word ≠ 0x00000004 → c.word ≠ 0x00000005 →
      decodeCommand c = .illegal c.word)

/-- The decoder, which reads R70's fields, accepts exactly the words that the mask and match of some
row of opcode_table.json accept, and then names that row's instruction. -/
def Obligations.DecoderAgreesWithTheTable : Prop :=
  ∀ c : Command,
    (legalWord c.word = true ↔ ∃ i, decodeCommand c = .legal i) ∧
    ∀ i, decodeCommand c = .legal i →
      ∃ r ∈ opcodeTable, r.mnemonic = i.mnemonic ∧ r.accepts c.word = true

/-- Decoding the command that presents an instruction gives the instruction back, with every operand. -/
def Obligations.DecodeOfEncodeIsTheInstruction : Prop :=
  ∀ i : Instr, decodeCommand (encodeCommand i) = .legal i

/-- 30_encoding.md section 3, an inference the spec marks as its own ("the command decoder is total and
its verdict depends on the command word alone"): whatever the channels hold, a command word is one
legal command's word or is illegal. -/
def Obligations.VerdictDependsOnTheWordAlone : Prop :=
  ∀ c c' : Command, c.word = c'.word →
    (∃ i i', decodeCommand c = .legal i ∧ decodeCommand c' = .legal i' ∧
      i.mnemonic = i'.mnemonic ∧ encodeWord i = c.word ∧ encodeWord i' = c.word) ∨
    (decodeCommand c = .illegal c.word ∧ decodeCommand c' = .illegal c.word)

/-- R72: a channel an opcode does not list is not read. -/
def Obligations.UnlistedChannelsAreNotRead : Prop :=
  ∀ c c' : Command, c.word = c'.word →
    (∀ idx, decodeCommand c = .legal (.lkhz idx) → decodeCommand c' = .legal (.lkhz idx)) ∧
    (∀ hz, decodeCommand c = .legal (.lkidx hz) → hz = c.a ∧ decodeCommand c' = .legal (.lkidx c'.a)) ∧
    (∀ buf, decodeCommand c = .legal (.decode buf) →
      buf = c.b ∧ decodeCommand c' = .legal (.decode c'.b)) ∧
    (∀ h p, decodeCommand c = .legal (.encode h p) →
      h = c.h ∧ p = c.b ∧ decodeCommand c' = .legal (.encode c'.h c'.b)) ∧
    (∀ h, decodeCommand c = .legal (.observe h) →
      h = c.h ∧ decodeCommand c' = .legal (.observe c'.h))

/-- R170, 92_eei_decisions.md D19 (log entry 12): the boundary refuses a number outside its width, and admits every
other command with its numbers unchanged. -/
def Obligations.BoundaryRefusesOutOfWidthValues : Prop :=
  ∀ r : RawCommand,
    (r.toCommand = none ↔
      2 ^ 32 ≤ r.word ∨ 2 ^ 32 ≤ r.a ∨ 2 ^ 8 ≤ r.h.sp ∨ 2 ^ 5 ≤ r.h.sri ∨ 2 ^ 32 ≤ r.h.hz ∨
      2 ^ 8 ≤ r.h.spf ∨ 2 ^ 8 ≤ r.h.fb2 ∨ 2 ^ 8 ≤ r.h.fb3 ∨ 2 ^ 32 ≤ r.h.fc ∨
      (∃ b ∈ r.h.name, 2 ^ 8 ≤ b) ∨ (∃ b ∈ r.b, 2 ^ 8 ≤ b)) ∧
    ∀ c, r.toCommand = some c →
      c.word.toNat = r.word ∧ c.a.toNat = r.a ∧ c.h.sp.toNat = r.h.sp ∧ c.h.sri.toNat = r.h.sri ∧
      c.h.hz.toNat = r.h.hz ∧ c.h.spf.toNat = r.h.spf ∧ c.h.fb2.toNat = r.h.fb2 ∧
      c.h.fb3.toNat = r.h.fb3 ∧ c.h.fc.toNat = r.h.fc ∧
      c.h.name.map BitVec.toNat = r.h.name ∧ c.b.map BitVec.toNat = r.b

/-- R80 (log entry 13): one line of each form of the assembler syntax, with the defaults of the braces. -/
def Obligations.AssemblerFormsAssemble : Prop :=
  (assembleLine "LKHZ 16".toList).bind RawCommand.toCommand = some (encodeCommand (.lkhz 16)) ∧
  (assembleLine "LKIDX 0xBB80".toList).bind RawCommand.toCommand = some (encodeCommand (.lkidx 48000)) ∧
  (assembleLine "DECODE [56 42 41]".toList).bind RawCommand.toCommand =
    some (encodeCommand (.decode [0x56, 0x42, 0x41])) ∧
  (assembleLine ("ENCODE ".toList ++ openBrace :: "sp=0x60, hz=44100, name=\"S\\x31\"".toList ++
      closeBrace :: " [AA]".toList)).bind RawCommand.toCommand =
    some (encodeCommand
      (.encode { Header.zero with sp := 0x60, hz := 44100, name := [0x53, 0x31] } [0xAA])) ∧
  (assembleLine ("OBSERVE ".toList ++ openBrace :: "fc=100".toList ++ [closeBrace])).bind
      RawCommand.toCommand =
    some (encodeCommand (.observe { Header.zero with fc := 100 }))

/-! ## The step -/

/-- R10, R50: the block takes the presented command whose word is legal, and executes it. -/
def Obligations.StepRunsTheDecodedCommand : Prop :=
  ∀ (s : State) (c : Command) (rest : List Input) (i : Instr),
    s.inputs = .command c :: rest → decodeCommand c = .legal i →
      step s = exec i { s with inputs := rest }

/-- R180, R201 (log entry 9): with nothing presented the block does nothing. -/
def Obligations.IdleBlockDoesNothing : Prop :=
  ∀ s : State, s.inputs = [] → step s = .next s

/-- R74: which words are illegal, and that an illegal word faults with `FAULT_ILLEGAL_COMMAND`. That the
fault is a next state whose output names the word is the model's choice (log entries 7 and 8). -/
def Obligations.IllegalWordFaults : Prop :=
  (∀ c : Command, illegalBits c.word ↔ decodeCommand c = .illegal c.word) ∧
  ∀ (s : State) (c : Command) (rest : List Input),
    s.Ready → s.inputs = .command c :: rest → illegalBits c.word →
      step s = .next { s with inputs := rest, faulted := true,
                              output := some (.fault (.illegalCommand c.word)) }

/-- R173, R174: a fault is one of the two, has its cause, and changes nothing but the fault mark
(the command is taken from the port and the port shows the fault: log entries 7 and 8). -/
def Obligations.FaultsHaveTheirCauseAndWriteTheMark : Prop :=
  ∀ (s t : State) (c : Command) (rest : List Input) (f : Fault),
    s.inputs = .command c :: rest → step s = .next t → t.output = some (.fault f) →
      s.Ready ∧
      t = { s with inputs := rest, faulted := true, output := some (.fault f) } ∧
      ((f = .illegalCommand c.word ∧ decodeCommand c = .illegal c.word) ∨
        ∃ buf, decodeCommand c = .legal (.decode buf) ∧ buf.length < 28 ∧
          f = .truncatedInput buf.length)

/-- R174: while the fault mark is set the block takes no command, legal or not, and gives nothing back
(that the command is dropped, not held, is the model's choice: log entry 6). -/
def Obligations.FaultedBlockTakesNoCommand : Prop :=
  ∀ s : State, s.faulted = true →
    (∀ i, exec i s = .next { s with output := none }) ∧
    ∀ c rest, s.inputs = .command c :: rest →
      step s = .next { s with inputs := rest, output := none }

/-- R174: from a quiescent block, however many commands are presented, the run never ends well: the
fault mark stays set and the entries stay as they were until reset. -/
def Obligations.QuiescentUntilReset : Prop :=
  ∀ (n : Nat) (s : State), s.Quiescent → (∀ x ∈ s.inputs, ∀ level, x ≠ .reset level) →
    ∃ t, runSteps n s = .next t ∧ t.Quiescent ∧ ¬ t.Final ∧ t.trk = s.trk ∧ t.rom = s.rom ∧
      t.inputs = s.inputs.drop n

/-- R200: what asserting reset, a command during reset, and releasing reset do. The reset input is a
level that inputs drive (log entry 10). -/
def Obligations.ResetEmptiesTheTable : Prop :=
  ∀ (s : State) (rest : List Input),
    (s.inputs = .reset true :: rest →
      ∃ t, step s = .next t ∧ (∀ k, t.trk.find k = none) ∧ t.faulted = false ∧ t.inReset = true ∧
        t.rom = s.rom ∧ t.params = s.params ∧ t.inputs = rest ∧ t.output = none) ∧
    (∀ c, s.inReset = true → s.inputs = .command c :: rest →
      step s = .next { s with inputs := rest, output := none }) ∧
    (s.inputs = .reset false :: rest →
      step s = .next { s with inputs := rest, inReset := false, output := none })

/-- R27: a command that faults sets the mark, and only reset clears it. -/
def Obligations.OnlyResetClearsTheFaultMark : Prop :=
  ∀ s t : State, step s = .next t →
    (s.faulted = false → t.faulted = true → ∃ f, t.output = some (.fault f)) ∧
    (∀ c rest f, s.inputs = .command c :: rest → t.output = some (.fault f) → t.faulted = true) ∧
    (s.faulted = true → t.faulted = false → ∃ rest, s.inputs = .reset true :: rest)

/-- R28, R200, R201: the reset values the spec gives; that nothing is presented to the port at reset, and
what an idle step is, are the model's choice (log entries 9 and 14). -/
def Obligations.ResetStateIsTheSpecs : Prop :=
  (∀ k, State.reset.trk.find k = none) ∧ State.reset.faulted = false ∧
    State.reset.rom = romContents ∧ step State.reset = .next State.reset

/-- Every step, from every state, answers a next state: the block never stops the machine (R170,
R209; that a fault is a next state is the model's choice, log entry 7). -/
def Obligations.EveryStepCompletes : Prop :=
  ∀ s : State, ∃ t, step s = .next t

/-- The invariant holds after reset. -/
def Obligations.InvariantHoldsAtReset : Prop := State.reset.Inv

/-- Every step keeps the invariant: the ROM's contents (R24), the table's canonical form with no
stored 0 (R28), the one entry of the constant key (R26), a cleared block during reset (R200), and
and an output that agrees with the fault mark (R174, R171; the output's part rests on log entries 6, 7
and 8). -/
def Obligations.EveryStepKeepsTheInvariant : Prop :=
  ∀ s t : State, s.Inv → step s = .next t → t.Inv

/-- R24, R29: no step, whatever it takes, writes the ROM or a parameter. -/
def Obligations.NoStepWritesRomOrParameters : Prop :=
  ∀ s t : State, step s = .next t → t.rom = s.rom ∧ t.params = s.params

/-- R182, R207, and the open order of several callers of R181 (log entry 5): callers that present legal words, and at least 28 bytes to every DECODE, never see a
fault, for any number of steps, any order of their commands and any resets between them. -/
def Obligations.DutifulCallersNeverFault : Prop :=
  ∀ (n : Nat) (s : State), s.faulted = false → (∀ x ∈ s.inputs, dutifulInput x = true) →
    ∃ t, runSteps n s = .next t ∧ t.faulted = false

/-- R2, R154, and the open order of several callers of R181 (log entry 5): dropping every lookup, DECODE and ENCODE from a sequence of dutiful inputs leaves
the validator's entries and the fault mark at its end as they were: only OBSERVE and reset matter,
however other callers' commands are interleaved with them. -/
def Obligations.CodecTrafficLeavesTheValidator : Prop :=
  ∀ (s : State) (xs : List Input), (∀ x ∈ xs, dutifulInput x = true) →
    ∃ t t', runSteps xs.length { s with inputs := xs } = .next t ∧
      runSteps (xs.filter reachesValidator).length
        { s with inputs := xs.filter reachesValidator } = .next t' ∧
      t.trk = t'.trk ∧ t.faulted = t'.faulted ∧ t.inReset = t'.inReset

/-! ## The sample-rate ROM -/

/-- R101: the ROM's contents, in the source's list. -/
def Obligations.RomHoldsTheSourceRates : Prop :=
  ∀ i : BitVec 5,
    indexToHz State.reset.rom i =
      if i.toNat ≤ 20 then some (BitVec.ofNat 32 (
        [ 6000, 12000, 24000, 48000, 96000, 192000, 384000, 8000, 16000, 32000, 64000, 128000,
          256000, 512000, 11025, 22050, 44100, 88200, 176400, 352800, 705600 ].getD i.toNat 0))
      else none

/-- R103, for whatever a ROM holds: the search answers the first index whose entry equals the rate,
and misses exactly when none does; reserved entries never match. -/
def Obligations.RateSearchFindsTheFirstMatch : Prop :=
  ∀ (rom : Rom) (hz : Word),
    (∀ i : BitVec 5, hzToIndex rom hz = some i ↔
      indexToHz rom i = some hz ∧ ∀ j : BitVec 5, j.toNat < i.toNat → indexToHz rom j ≠ some hz) ∧
    (hzToIndex rom hz = none ↔ ∀ i : BitVec 5, indexToHz rom i ≠ some hz) ∧
    (rom = romContents → hz.toNat ∉ sampleRates → hzToIndex rom hz = none)

/-- 40_sample_rate_rom.md section 1, an inference the spec marks as its own ("`hzToIndex` is the inverse
of `indexToHz` on the defined indices"): the rates are distinct and the two lookups are inverse. -/
def Obligations.RomLookupsAreInverse : Prop :=
  (∀ i j : BitVec 5, i.toNat ≤ 20 → j.toNat ≤ 20 →
    indexToHz romContents i = indexToHz romContents j → i = j) ∧
  (∀ i : BitVec 5, i.toNat ≤ 20 →
    ∃ hz, indexToHz romContents i = some hz ∧ hzToIndex romContents hz = some i) ∧
  (∀ (hz : Word) (j : BitVec 5), hzToIndex romContents hz = some j →
    indexToHz romContents j = some hz)

/-- R105, R102: LKHZ answers the rate of its index, and a miss for a reserved one. -/
def Obligations.LkhzAnswersTheRate : Prop :=
  ∀ idx : BitVec 5,
    (∀ c, decodeCommand c = .legal (.lkhz idx) ↔ c.word = 0x00000001#32 ||| (idx.setWidth 32 <<< 8)) ∧
    ∀ s : State, s.rom = romContents → s.Ready →
      exec (.lkhz idx) s = .next
        { s with output := some (.response
          { status := 0, valid := decide (idx.toNat ≤ 20),
            value := BitVec.ofNat 32 (sampleRates.getD idx.toNat 0),
            hdr := none, out := none, diag := .none }) }

/-- R106: LKIDX answers the index of a rate the ROM holds, and a miss for any other number. -/
def Obligations.LkidxAnswersTheIndex : Prop :=
  ∀ hz : Word,
    (∀ c, decodeCommand c = .legal (.lkidx hz) ↔ c.word = 0x00000002 ∧ c.a = hz) ∧
    ∀ s : State, s.rom = romContents → s.Ready →
      (∀ i : Nat, sampleRates[i]? = some hz.toNat →
        exec (.lkidx hz) s = .next
          { s with output := some (.response
            { status := 0, valid := true, value := BitVec.ofNat 32 i,
              hdr := none, out := none, diag := .none }) }) ∧
      (hz.toNat ∉ sampleRates →
        exec (.lkidx hz) s = .next
          { s with output := some (.response
            { status := 0, valid := false, value := 0,
              hdr := none, out := none, diag := .none }) })

/-! ## The field codecs -/

/-- R62: the two fields of byte 0 do not overlap and fill it. -/
def Obligations.Byte0IsItsTwoFields : Prop :=
  ∀ b : Byte, b = b.extractLsb' 5 3 ++ unpackSri b ∧
    unpackSp .shifted b = (b.extractLsb' 5 3).setWidth 8 ∧ unpackSp .inplace b = b &&& 0xE0

/-- R63, R64: unpacking what PACK0 packs gives the index and the tag's bits 7:5 back; packing what
UNPACK0 gives restores the byte in the in-place form and loses the tag in the shifted form. -/
def Obligations.Byte0PacksAndUnpacks : Prop :=
  (∀ (idx : BitVec 5) (sp : Byte), unpackSri (pack0 idx sp) = idx ∧
    unpackSp .inplace (pack0 idx sp) = sp &&& 0xE0 ∧
    (unpackSp .shifted (pack0 idx sp)).toNat = sp.toNat / 32) ∧
  ∀ b : Byte, pack0 (unpackSri b) (unpackSp .inplace b) = b ∧
    (pack0 (unpackSri b) (unpackSp .shifted b)).toNat = b.toNat % 32

/-- R65: the padded name has 16 bytes, the name's first 16 followed by zeros. -/
def Obligations.PadNameFillsSixteenBytes : Prop :=
  ∀ name : Bytes, (padName name).length = 16 ∧
    ∀ i < 16, (padName name)[i]? = some (if i < name.length then name.getD i 0 else 0)

/-- R66: TRIMNAME removes exactly the trailing run of trim-set bytes, after clearing bit 7 where the
parameter says so; this hardware's set is 0x00 to 0x1F and 0x7F. -/
def Obligations.TrimNameRemovesTheTrailingRun : Prop :=
  (∀ (p : Config) (raw : Bytes), ∃ run : Bytes,
    raw.map (fun b => if p.nameHighbit = .clear then b &&& 0x7F else b) = trimName p raw ++ run ∧
    (∀ b ∈ run, b ∈ p.trimSet) ∧
    ∀ b, (trimName p raw).getLast? = some b → b ∉ p.trimSet) ∧
  ∀ b : Byte, b ∈ Config.hardware.trimSet ↔ b.toNat ≤ 0x1F ∨ b.toNat = 0x7F

/-- R9, R40: LE32 reads and LE32bytes writes little-endian, and each undoes the other. -/
def Obligations.FrameCounterIsLittleEndian : Prop :=
  (∀ b0 b1 b2 b3 : Byte,
    (le32 b0 b1 b2 b3).toNat =
      b0.toNat + 2 ^ 8 * b1.toNat + 2 ^ 16 * b2.toNat + 2 ^ 24 * b3.toNat ∧
    le32Bytes (le32 b0 b1 b2 b3) = [b0, b1, b2, b3]) ∧
  ∀ v : Word, ∃ b0 b1 b2 b3, le32Bytes v = [b0, b1, b2, b3] ∧ le32 b0 b1 b2 b3 = v

/-! ## DECODE -/

/-- R121: a buffer shorter than 28 bytes faults whatever its bytes hold. That the fault is a next state
whose output records the length (R173, R174) is the model's choice (log entries 7 and 8). -/
def Obligations.ShortBufferFaults : Prop :=
  ∀ (buf : Bytes) (s : State), s.Ready → buf.length < 28 →
    exec (.decode buf) s =
      .next { s with faulted := true, output := some (.fault (.truncatedInput buf.length)) }

/-- R123, and the rest of R120's procedure: for a buffer of at least 28 bytes a reserved index is an
error, any other index gives the Header. -/
def Obligations.DecodeFollowsItsProcedure : Prop :=
  ∀ buf : Bytes,
    (∀ c, decodeCommand c = .legal (.decode buf) ↔ c.word = 0x00000003 ∧ c.b = buf) ∧
    ∀ s : State, s.rom = romContents → s.Ready → 28 ≤ buf.length →
      exec (.decode buf) s =
        if 21 ≤ (buf.getD 4 0).toNat % 32 then
          .next { s with output := some (.response
            { status := 1, valid := false, value := 0, hdr := none, out := none, diag := .none }) }
        else
          .next { s with output := some (.response
            { status := 0, valid := false, value := 0, out := none, diag := .none
              hdr := some
                { sp := if s.params.spForm = .inplace then buf.getD 4 0 &&& 0xE0
                        else buf.getD 4 0 >>> 5
                  sri := BitVec.ofNat 5 ((buf.getD 4 0).toNat % 32)
                  hz := BitVec.ofNat 32 (sampleRates.getD ((buf.getD 4 0).toNat % 32) 0)
                  spf := buf.getD 5 0
                  fb2 := buf.getD 6 0
                  fb3 := buf.getD 7 0
                  name := trimName s.params ((buf.drop 8).take 16)
                  fc := BitVec.ofNat 32 ((buf.getD 24 0).toNat + 2 ^ 8 * (buf.getD 25 0).toNat +
                    2 ^ 16 * (buf.getD 26 0).toNat + 2 ^ 24 * (buf.getD 27 0).toNat) } }) }

/-- 41_header_codec.md section 1, an inference the spec marks as its own ("The fields of a DECODE result
depend only on bytes 4..27 of the buffer"): two buffers of at least 28 bytes that agree on offsets 4 to 27 give
the same outcome, whatever their tags and payloads. -/
def Obligations.DecodeReadsOnlyTheStructuredRegion : Prop :=
  ∀ (buf buf' : Bytes) (s : State), 28 ≤ buf.length → 28 ≤ buf'.length →
    (∀ i, 4 ≤ i → i < 28 → buf[i]? = buf'[i]?) → exec (.decode buf) s = exec (.decode buf') s

/-- 41_header_codec.md section 1, an inference the spec marks as its own ("DECODE applies the same
procedure whatever the sub-protocol tag"): changing the sub-protocol tag of a buffer changes nothing of DECODE but the tag it returns. -/
def Obligations.DecodeDoesNotBranchOnTheTag : Prop :=
  ∀ (buf : Bytes) (b : Byte) (s : State), s.Ready → 28 ≤ buf.length →
    unpackSri b = unpackSri (buf.getD 4 0) →
    ∃ r r', exec (.decode buf) s = .next { s with output := some (.response r) } ∧
      exec (.decode (buf.set 4 b)) s = .next { s with output := some (.response r') } ∧
      r' = { r with hdr := r.hdr.map (fun h => { h with sp := unpackSp s.params.spForm b }) }

/-- R31: every Header DECODE returns has a defined index, the rate of that index, a name of at most
16 bytes, and a tag in the form the parameter names. -/
def Obligations.DecodedHeaderIsInRange : Prop :=
  ∀ (buf : Bytes) (s t : State) (r : Response) (h : Header), s.rom = romContents →
    exec (.decode buf) s = .next t → t.output = some (.response r) → r.hdr = some h →
      h.sri.toNat ≤ 20 ∧ sampleRates[h.sri.toNat]? = some h.hz.toNat ∧ h.name.length ≤ 16 ∧
      (s.params.spForm = .inplace → h.sp.toNat % 32 = 0) ∧
      (s.params.spForm = .shifted → h.sp.toNat ≤ 7)

/-! ## ENCODE -/

/-- R127, R129: a rate of the ROM gives the packet, any other rate the error and no output. -/
def Obligations.EncodeFollowsItsProcedure : Prop :=
  ∀ (h : Header) (payload : Bytes),
    (∀ c, decodeCommand c = .legal (.encode h payload) ↔
      c.word = 0x00000004 ∧ c.h = h ∧ c.b = payload) ∧
    ∀ s : State, s.rom = romContents → s.Ready →
      (∀ i : Nat, sampleRates[i]? = some h.hz.toNat →
        exec (.encode h payload) s = .next
          { s with output := some (.response
            { status := 0, valid := false, value := 0, hdr := none, diag := .none
              out := some (s.params.tag.toList ++
                [BitVec.ofNat 8 i ||| (h.sp &&& 0xE0), h.spf, h.fb2, h.fb3] ++
                (h.name.take 16 ++ List.replicate (16 - h.name.length) 0) ++
                [h.fc.extractLsb' 0 8, h.fc.extractLsb' 8 8, h.fc.extractLsb' 16 8,
                  h.fc.extractLsb' 24 8] ++
                payload.take s.params.maxPayload) }) }) ∧
      (h.hz.toNat ∉ sampleRates →
        exec (.encode h payload) s = .next
          { s with output := some (.response
            { status := 2, valid := false, value := 0, hdr := none, out := none, diag := .none }) })

/-- 41_header_codec.md section 2, an inference the spec marks as its own ("Output shape"): the length and
the parts of every output. -/
def Obligations.EncodeOutputShape : Prop :=
  ∀ (h : Header) (payload out : Bytes) (s t : State) (r : Response), s.rom = romContents →
    exec (.encode h payload) s = .next t → t.output = some (.response r) → r.out = some out →
      out.length = 28 + min payload.length s.params.maxPayload ∧
      out.take 4 = s.params.tag.toList ∧
      (∃ b, out[4]? = some b ∧ b.toNat % 32 ≤ 20 ∧ b.toNat / 32 = h.sp.toNat / 32) ∧
      (out.drop 8).take 16 = padName h.name ∧
      (out.drop 24).take 4 = le32Bytes h.fc ∧
      out.drop 28 = payload.take s.params.maxPayload

/-- R130: ENCODE does not read `sri`. -/
def Obligations.EncodeIgnoresTheIndex : Prop :=
  ∀ (h : Header) (payload : Bytes) (sri : BitVec 5) (s : State),
    exec (.encode { h with sri := sri } payload) s = exec (.encode h payload) s

/-- R131: the payload's first `P_MAX_PAYLOAD` bytes, in order, are all of it that ENCODE writes and
all that it depends on; with `P_MAX_PAYLOAD = 0` the output has 28 bytes. -/
def Obligations.PayloadIsTruncated : Prop :=
  ∀ (h : Header) (payload : Bytes) (s : State),
    exec (.encode h payload) s = exec (.encode h (payload.take s.params.maxPayload)) s ∧
    ∀ (t : State) (r : Response) (out : Bytes), exec (.encode h payload) s = .next t →
      t.output = some (.response r) → r.out = some out →
        out.drop 28 = payload.take (min payload.length s.params.maxPayload) ∧
        (s.params.maxPayload = 0 → out.length = 28)

/-- R9, R44, R61: the packet is what MemWrite of each field at its offset makes of a buffer of the
output's length, each byte written once. -/
def Obligations.PacketIsItsFieldWrites : Prop :=
  ∀ (p : Config) (idx : BitVec 5) (h : Header) (payload : Bytes),
    buildPacket p idx h payload =
      memWrite (memWrite (memWrite (memWrite (memWrite (memWrite (memWrite (memWrite
        (zeros (28 + min payload.length p.maxPayload))
        0 4 p.tag.toList) 4 1 [pack0 idx h.sp]) 5 1 [h.spf]) 6 1 [h.fb2]) 7 1 [h.fb3])
        8 16 (padName h.name)) 24 4 (le32Bytes h.fc))
        28 (min payload.length p.maxPayload) payload

/-! ## The laws of the pair -/

/-- 41_header_codec.md section 3, an inference the spec marks as its own ("Encode then decode"): encoding a Header whose rate the ROM holds and decoding the output gives the Header back as
the rule says. The name is the same exactly when it fits, its last byte is not trimmed and (with
CLEAR) no byte has bit 7 set, for a trim set that holds 0x00, as this hardware's does. -/
def Obligations.EncodeThenDecode : Prop :=
  (∀ (h : Header) (payload : Bytes) (s : State) (i : BitVec 5), s.rom = romContents → s.Ready →
    hzToIndex s.rom h.hz = some i →
    ∃ out, exec (.encode h payload) s = .next
        { s with output := some (.response
          { status := 0, valid := false, value := 0, hdr := none, out := some out, diag := .none }) } ∧
      exec (.decode out) s = .next
        { s with output := some (.response
          { status := 0, valid := false, value := 0, out := none, diag := .none
            hdr := some
              { sp := if s.params.spForm = .inplace then h.sp &&& 0xE0 else h.sp >>> 5
                sri := i, hz := h.hz, spf := h.spf, fb2 := h.fb2, fb3 := h.fb3
                name := trimName s.params (padName h.name), fc := h.fc } }) }) ∧
  ∀ (p : Config) (name : Bytes), 0 ∈ p.trimSet →
    (trimName p (padName name) = name ↔
      name.length ≤ 16 ∧ (∀ b, name.getLast? = some b → b ∉ p.trimSet) ∧
        (p.nameHighbit = .clear → ∀ b ∈ name, b.toNat < 0x80))

/-- 41_header_codec.md section 3, an inference the spec marks as its own ("Decode then encode"): decoding an accepted buffer and encoding the Header with the buffer's payload gives the
buffer back, but for the tag, the trimmed end of the name and the payload's limit. -/
def Obligations.DecodeThenEncode : Prop :=
  ∀ (buf : Bytes) (s t : State) (r : Response) (h : Header), s.rom = romContents → s.Ready →
    28 ≤ buf.length → exec (.decode buf) s = .next t → t.output = some (.response r) →
    r.hdr = some h →
    ∃ out kept run, exec (.encode h (buf.drop 28)) t = .next
        { t with output := some (.response
          { status := 0, valid := false, value := 0, hdr := none, out := some out, diag := .none }) } ∧
      out.take 4 = s.params.tag.toList ∧
      (s.params.spForm = .inplace → out[4]? = buf[4]?) ∧
      (s.params.spForm = .shifted → out[4]? = some (buf.getD 4 0 &&& 0x1F)) ∧
      out[5]? = buf[5]? ∧ out[6]? = buf[6]? ∧ out[7]? = buf[7]? ∧
      ((buf.drop 8).take 16).map (fun b => if s.params.nameHighbit = .clear then b &&& 0x7F else b) =
        kept ++ run ∧
      (∀ b ∈ run, b ∈ s.params.trimSet) ∧ (∀ b, kept.getLast? = some b → b ∉ s.params.trimSet) ∧
      (out.drop 8).take 16 = kept ++ zeros run.length ∧
      (out.drop 24).take 4 = (buf.drop 24).take 4 ∧
      out.drop 28 = (buf.drop 28).take s.params.maxPayload

/-! ## OBSERVE -/

/-- R150, R151: the early return on 0, the event against the key's entry, and the entry's write; every
other key's entry stays. -/
def Obligations.ObserveFollowsItsProcedure : Prop :=
  ∀ h : Header,
    (∀ c, decodeCommand c = .legal (.observe h) ↔ c.word = 0x00000005 ∧ c.h = h) ∧
    ∀ s : State, s.Ready →
      (h.fc = 0 → exec (.observe h) s = .next
        { s with output := some (.response
          { status := 0, valid := false, value := 0, hdr := none, out := none, diag := .none }) }) ∧
      (h.fc ≠ 0 → ∃ trk' : Trk,
        exec (.observe h) s = .next
          { s with
            trk := trk'
            output := some (.response
              { status := 0, valid := false, value := 0, hdr := none, out := none
                diag :=
                  match s.trk.find (keyOf s.params.keyFn h) with
                  | none => .none
                  | some p => if p.toNat > h.fc.toNat then .anomaly p h.fc else .info (h.fc - p) }) } ∧
        trk'.find (keyOf s.params.keyFn h) = some h.fc ∧
        (∀ k, k ≠ keyOf s.params.keyFn h → trk'.find k = s.trk.find k) ∧
        (s.trk.wf → trk'.wf))

/-- R152: the test is unsigned, the gap never wraps and is at most 0xFFFFFFFE (an entry is never 0),
and a repeated counter is a gap of 0. -/
def Obligations.GapNeverWraps : Prop :=
  ∀ (h : Header) (s : State) (p : Word), s.Ready → s.trk.find (keyOf s.params.keyFn h) = some p →
    p ≠ 0 → h.fc ≠ 0 →
    ∃ t r, exec (.observe h) s = .next t ∧ t.output = some (.response r) ∧
      (h.fc.toNat < p.toNat → r.diag = .anomaly p h.fc) ∧
      (p.toNat ≤ h.fc.toNat → ∃ gap : Word, r.diag = .info gap ∧
        p.toNat + gap.toNat = h.fc.toNat ∧ gap.toNat ≤ 0xFFFFFFFE ∧ (h.fc = p → gap = 0))

/-- 42_sequence_validator.md section 1, an inference the spec marks as its own ("the validator does not
recognise a wrap"): after 0xFFFFFFFF, a counter of 0 takes the early return and the next counter 1 is reported
as an anomaly. -/
def Obligations.WrapIsReportedAsAnomaly : Prop :=
  ∀ (h0 h1 : Header) (s : State), s.Ready →
    s.trk.find (keyOf s.params.keyFn h1) = some 0xFFFFFFFF → h0.fc = 0 → h1.fc = 1 →
    ∃ t t' r', exec (.observe h0) s = .next t ∧ t.trk = s.trk ∧
      t.output = some (.response
        { status := 0, valid := false, value := 0, hdr := none, out := none, diag := .none }) ∧
      exec (.observe h1) t = .next t' ∧ t'.output = some (.response r') ∧
      r'.diag = .anomaly 0xFFFFFFFF 1

/-- R154: OBSERVE never errs or faults, and no other command's outcome depends on the entries. -/
def Obligations.ObserveNeverFailsOrDisturbs : Prop :=
  (∀ (h : Header) (s : State), s.Ready →
    ∃ t r, exec (.observe h) s = .next t ∧ t.output = some (.response r) ∧ r.status = 0 ∧
      t.faulted = false) ∧
  ∀ (i : Instr) (s : State) (trk' : Trk), (∀ h, i ≠ .observe h) →
    ∃ t, exec i s = .next t ∧ t.trk = s.trk ∧
      exec i { s with trk := trk' } = .next { t with trk := trk' }

/-- R155: with this hardware's constant key every OBSERVE uses the same entry, whatever stream the
Header names: the second of two is compared with the first. -/
def Obligations.SingleKeyIsSharedByAllStreams : Prop :=
  ∀ (h h' : Header) (s : State), s.Ready → s.params.keyFn = .constK0 → h.fc ≠ 0 → h'.fc ≠ 0 →
    ∃ t t' r', exec (.observe h) s = .next t ∧ exec (.observe h') t = .next t' ∧
      t'.output = some (.response r') ∧
      r'.diag = if h'.fc.toNat < h.fc.toNat then .anomaly h.fc h'.fc else .info (h'.fc - h.fc)

/-- The model's numbering of stream names as keys (log entry 4) gives different names different keys,
so that with that key function each stream has an entry of its own (R26). -/
def Obligations.PerNameKeysAreSeparate : Prop :=
  ∀ h h' : Header, keyOf .streamName h = keyOf .streamName h' ↔ h.name = h'.name

/-- R156: an entry comes into being at a non-zero OBSERVE for its key, is overwritten by every later
one, and is removed by reset alone. That reset is an input of the port is the model's reading (log
entry 10). -/
def Obligations.EntryLifetime : Prop :=
  ∀ s t : State, step s = .next t →
    (∀ k, t.trk.find k ≠ s.trk.find k →
      (∃ rest, s.inputs = .reset true :: rest ∧ t.trk.find k = none) ∨
      ∃ c h rest, s.inputs = .command c :: rest ∧ decodeCommand c = .legal (.observe h) ∧
        h.fc ≠ 0 ∧ keyOf s.params.keyFn h = k ∧ t.trk.find k = some h.fc) ∧
    (∀ c h rest, s.Ready → s.inputs = .command c :: rest → decodeCommand c = .legal (.observe h) →
      h.fc ≠ 0 → t.trk.find (keyOf s.params.keyFn h) = some h.fc) ∧
    (∀ rest k, s.inputs = .reset true :: rest → t.trk.find k = none)

/-- R25: after any sequence of OBSERVE commands, each key's entry is the counter of the most recent
one for the key that was not 0, or what it was before if there was none. -/
def Obligations.EntryIsTheLastNonZeroCounter : Prop :=
  ∀ (hs : List Header) (s : State) (rest : List Input), s.Ready →
    s.inputs = hs.map (fun h => .command (encodeCommand (.observe h))) ++ rest →
    ∃ t, runSteps hs.length s = .next t ∧ t.inputs = rest ∧ t.Ready ∧
      ∀ k, t.trk.find k =
        (((hs.filter (fun h => decide (h.fc ≠ 0 ∧ keyOf s.params.keyFn h = k))).getLast?).map
          (·.fc)).or (s.trk.find k)

/-- R46: every command but OBSERVE is idempotent, and its response is a function of its operands, the
ROM and the parameters alone. A repeated non-zero OBSERVE reports a gap of 0, an inference the spec
marks as its own ("and then `INFO(0)`"). -/
def Obligations.IdempotentButForObserve : Prop :=
  (∀ (i : Instr) (s t : State), (∀ h, i ≠ .observe h) → s.Ready → exec i s = .next t → t.Ready →
    exec i t = .next t) ∧
  (∀ (i : Instr) (s s' t t' : State), (∀ h, i ≠ .observe h) → s.Ready → s'.Ready →
    s.params = s'.params → s.rom = s'.rom → exec i s = .next t → exec i s' = .next t' →
    t.output = t'.output) ∧
  ∀ (h : Header) (s : State), s.Ready → h.fc ≠ 0 →
    ∃ t t' r, exec (.observe h) s = .next t ∧ exec (.observe h) t = .next t' ∧
      t'.output = some (.response r) ∧ r.diag = .info 0 ∧ t'.trk.find (keyOf s.params.keyFn h) = some h.fc

/-! ## Frames and responses -/

/-- R20, R46: LKHZ, LKIDX, DECODE and ENCODE leave every state element as it was, but for the fault
mark of a short DECODE (log entry 7); only the port's output is theirs. -/
def Obligations.CodecCommandsLeaveTheState : Prop :=
  ∀ (i : Instr) (s t : State), (∀ h, i ≠ .observe h) → exec i s = .next t →
    t = { s with faulted := t.faulted, output := t.output } ∧
    (t.faulted = s.faulted ∨
      (t.faulted = true ∧ ∃ buf, i = .decode buf ∧ buf.length < 28))

/-- R25, R150: OBSERVE leaves every state element as it was but its own key's entry; a counter of 0,
or a block that takes no command, leaves that too. -/
def Obligations.ObserveLeavesAllButItsEntry : Prop :=
  ∀ (h : Header) (s t : State), exec (.observe h) s = .next t →
    t = { s with trk := t.trk, output := t.output } ∧
    (∀ k, k ≠ keyOf s.params.keyFn h → t.trk.find k = s.trk.find k) ∧
    (h.fc = 0 ∨ ¬ s.Ready → t.trk = s.trk)

/-- R171: the status codes, and which command raises which. -/
def Obligations.StatusCodesByCommand : Prop :=
  ∀ (i : Instr) (s t : State) (r : Response), exec i s = .next t →
    t.output = some (.response r) →
      r.status = 0 ∨ (r.status = 1 ∧ ∃ buf, i = .decode buf) ∨
        (r.status = 2 ∧ ∃ h payload, i = .encode h payload)

/-- R33, R73: the response fields a command does not name hold their defaults, and an error names
none but its status (R172). -/
def Obligations.OnlyNamedResponseFields : Prop :=
  ∀ (i : Instr) (s t : State) (r : Response), exec i s = .next t →
    t.output = some (.response r) →
      ((∀ idx, i ≠ .lkhz idx) → (∀ hz, i ≠ .lkidx hz) → r.valid = false) ∧
      (r.valid = false → r.value = 0) ∧
      ((∀ buf, i ≠ .decode buf) → r.hdr = none) ∧
      ((∀ h payload, i ≠ .encode h payload) → r.out = none) ∧
      ((∀ h, i ≠ .observe h) → r.diag = .none) ∧
      (r.status ≠ 0 → r.hdr = none ∧ r.out = none)

/-- R34: the application types' constants. -/
def Obligations.ServiceTypeCodes : Prop :=
  [ServiceType.unknown, .receptor, .transmitter, .receptorSpot, .transmitterSpot, .virtualDevice,
    .virtualMixer, .matrix, .daw, .server].map (fun x => (serviceCode x).toNat) =
  [0x0, 0x1, 0x2, 0x4, 0x8, 0x10, 0x20, 0x40, 0x80, 0x01000000]
end

