-- ==== Sys2Proof/Laws/Decode.lean ====
section
/-!
SUPPORT. A command word is its three fields of R70.
-/

namespace Sys2Proof

/-- The fields RSV, IDX and OPC together are the word. -/
theorem word_eq_fields (w : Word) : w = rsvField w ++ (idxField w ++ opcField w) := by
  simp only [rsvField, idxField, opcField]
  apply BitVec.eq_of_getLsbD_eq
  intro i hi
  simp only [BitVec.getLsbD_append, BitVec.getLsbD_extractLsb']
  split
  · split
    · rename_i h
      rw [Nat.zero_add, decide_eq_true h, Bool.true_and]
    · rw [show 8 + (i - 8) = i by omega, decide_eq_true (show i - 8 < 5 by omega), Bool.true_and]
  · rw [show 13 + (i - (5 + 8)) = i by omega, decide_eq_true (show i - (5 + 8) < 19 by omega),
      Bool.true_and]

/-- The fields of LKHZ's word. -/
theorem fields_of_lkhz_word (idx : BitVec 5) :
    rsvField (encodeWord (.lkhz idx)) = 0 ∧ opcField (encodeWord (.lkhz idx)) = 1 ∧
      idxField (encodeWord (.lkhz idx)) = idx := by
  revert idx
  decide

end Sys2Proof
end

