-- ==== Sys2Proof/Laws/State.lean ====
section
/-!
SUPPORT. What each update of the state does to each field, and how the updates' switches read.
-/

namespace Sys2Proof.Machine

@[simp] theorem State.respond_params (s : State) (r : Response) :
    (s.respond r).params = s.params := rfl

@[simp] theorem State.respond_rom (s : State) (r : Response) :
    (s.respond r).rom = s.rom := rfl

@[simp] theorem State.respond_trk (s : State) (r : Response) :
    (s.respond r).trk = s.trk := rfl

@[simp] theorem State.respond_faulted (s : State) (r : Response) :
    (s.respond r).faulted = s.faulted := rfl

@[simp] theorem State.respond_inReset (s : State) (r : Response) :
    (s.respond r).inReset = s.inReset := rfl

@[simp] theorem State.respond_inputs (s : State) (r : Response) :
    (s.respond r).inputs = s.inputs := rfl

@[simp] theorem State.respond_output (s : State) (r : Response) :
    (s.respond r).output = some (.response r) := rfl

@[simp] theorem State.silent_params (s : State) :
    s.silent.params = s.params := rfl

@[simp] theorem State.silent_rom (s : State) :
    s.silent.rom = s.rom := rfl

@[simp] theorem State.silent_trk (s : State) :
    s.silent.trk = s.trk := rfl

@[simp] theorem State.silent_faulted (s : State) :
    s.silent.faulted = s.faulted := rfl

@[simp] theorem State.silent_inReset (s : State) :
    s.silent.inReset = s.inReset := rfl

@[simp] theorem State.silent_inputs (s : State) :
    s.silent.inputs = s.inputs := rfl

@[simp] theorem State.silent_output (s : State) :
    s.silent.output = none := rfl

@[simp] theorem State.takeFault_params (s : State) (f : Fault) :
    (s.takeFault f).params = s.params := rfl

@[simp] theorem State.takeFault_rom (s : State) (f : Fault) :
    (s.takeFault f).rom = s.rom := rfl

@[simp] theorem State.takeFault_trk (s : State) (f : Fault) :
    (s.takeFault f).trk = s.trk := rfl

@[simp] theorem State.takeFault_faulted (s : State) (f : Fault) :
    (s.takeFault f).faulted = true := rfl

@[simp] theorem State.takeFault_inReset (s : State) (f : Fault) :
    (s.takeFault f).inReset = s.inReset := rfl

@[simp] theorem State.takeFault_inputs (s : State) (f : Fault) :
    (s.takeFault f).inputs = s.inputs := rfl

@[simp] theorem State.takeFault_output (s : State) (f : Fault) :
    (s.takeFault f).output = some (.fault f) := rfl

@[simp] theorem State.track_params (s : State) (k : Nat) (c : Word) :
    (s.track k c).params = s.params := rfl

@[simp] theorem State.track_rom (s : State) (k : Nat) (c : Word) :
    (s.track k c).rom = s.rom := rfl

@[simp] theorem State.track_trk (s : State) (k : Nat) (c : Word) :
    (s.track k c).trk = s.trk.store k c := rfl

@[simp] theorem State.track_faulted (s : State) (k : Nat) (c : Word) :
    (s.track k c).faulted = s.faulted := rfl

@[simp] theorem State.track_inReset (s : State) (k : Nat) (c : Word) :
    (s.track k c).inReset = s.inReset := rfl

@[simp] theorem State.track_inputs (s : State) (k : Nat) (c : Word) :
    (s.track k c).inputs = s.inputs := rfl

@[simp] theorem State.track_output (s : State) (k : Nat) (c : Word) :
    (s.track k c).output = s.output := rfl

@[simp] theorem State.assertReset_params (s : State) :
    s.assertReset.params = s.params := rfl

@[simp] theorem State.assertReset_rom (s : State) :
    s.assertReset.rom = s.rom := rfl

@[simp] theorem State.assertReset_trk (s : State) :
    s.assertReset.trk = [] := rfl

@[simp] theorem State.assertReset_faulted (s : State) :
    s.assertReset.faulted = false := rfl

@[simp] theorem State.assertReset_inReset (s : State) :
    s.assertReset.inReset = true := rfl

@[simp] theorem State.assertReset_inputs (s : State) :
    s.assertReset.inputs = s.inputs := rfl

@[simp] theorem State.assertReset_output (s : State) :
    s.assertReset.output = none := rfl

@[simp] theorem State.releaseReset_params (s : State) :
    s.releaseReset.params = s.params := rfl

@[simp] theorem State.releaseReset_rom (s : State) :
    s.releaseReset.rom = s.rom := rfl

@[simp] theorem State.releaseReset_trk (s : State) :
    s.releaseReset.trk = s.trk := rfl

@[simp] theorem State.releaseReset_faulted (s : State) :
    s.releaseReset.faulted = s.faulted := rfl

@[simp] theorem State.releaseReset_inReset (s : State) :
    s.releaseReset.inReset = false := rfl

@[simp] theorem State.releaseReset_inputs (s : State) :
    s.releaseReset.inputs = s.inputs := rfl

@[simp] theorem State.releaseReset_output (s : State) :
    s.releaseReset.output = none := rfl

@[simp] theorem State.withInputs_params (s : State) (rest : List Input) :
    (s.withInputs rest).params = s.params := rfl

@[simp] theorem State.withInputs_rom (s : State) (rest : List Input) :
    (s.withInputs rest).rom = s.rom := rfl

@[simp] theorem State.withInputs_trk (s : State) (rest : List Input) :
    (s.withInputs rest).trk = s.trk := rfl

@[simp] theorem State.withInputs_faulted (s : State) (rest : List Input) :
    (s.withInputs rest).faulted = s.faulted := rfl

@[simp] theorem State.withInputs_inReset (s : State) (rest : List Input) :
    (s.withInputs rest).inReset = s.inReset := rfl

@[simp] theorem State.withInputs_inputs (s : State) (rest : List Input) :
    (s.withInputs rest).inputs = rest := rfl

@[simp] theorem State.withInputs_output (s : State) (rest : List Input) :
    (s.withInputs rest).output = s.output := rfl

@[simp] theorem State.idle_eq (s : State) : s.idle = s := rfl

@[simp] theorem State.driveReset_true (s : State) : s.driveReset true = s.assertReset := rfl

@[simp] theorem State.driveReset_false (s : State) : s.driveReset false = s.releaseReset := rfl

/-- A block accepts commands exactly when it holds no fault and is not in reset. -/
theorem State.accepts_iff (s : State) :
    s.accepts = true ↔ s.faulted = false ∧ s.inReset = false := by
  simp [State.accepts]

/-- The gate of a block that takes commands. -/
theorem State.gate_open (s : State) (run : State → State) (hf : s.faulted = false)
    (hr : s.inReset = false) : s.gate run = run s := by
  simp [State.gate, State.accepts, hf, hr]

/-- The gate of a block that takes no command. -/
theorem State.gate_closed (s : State) (run : State → State)
    (h : s.faulted = true ∨ s.inReset = true) : s.gate run = s.silent := by
  rcases h with h | h <;> simp [State.gate, State.accepts, h]

/-- Everything the gate can do. -/
theorem State.gate_cases (s : State) (run : State → State) :
    (s.faulted = false ∧ s.inReset = false ∧ s.gate run = run s) ∨
      ((s.faulted = true ∨ s.inReset = true) ∧ s.gate run = s.silent) := by
  cases hf : s.faulted
  · cases hr : s.inReset
    · exact .inl ⟨rfl, rfl, s.gate_open run hf hr⟩
    · exact .inr ⟨.inr rfl, s.gate_closed run (.inr hr)⟩
  · exact .inr ⟨.inl rfl, s.gate_closed run (.inl hf)⟩

end Sys2Proof.Machine
end

