-- ==== Sys2Proof/Laws/Fields.lean ====
section
/-!
SUPPORT. Small facts of the field codecs and of the responses.
-/

namespace Sys2Proof.Machine

@[simp] theorem responseOf_status (c : BitVec 8) : (responseOf c).status = c := rfl

@[simp] theorem responseOf_valid (c : BitVec 8) : (responseOf c).valid = false := rfl

@[simp] theorem responseOf_value (c : BitVec 8) : (responseOf c).value = 0 := rfl

@[simp] theorem responseOf_hdr (c : BitVec 8) : (responseOf c).hdr = none := rfl

@[simp] theorem responseOf_out (c : BitVec 8) : (responseOf c).out = none := rfl

@[simp] theorem responseOf_diag (c : BitVec 8) : (responseOf c).diag = .none := rfl

/-- The payload field is the payload's first `limit` bytes (R69). -/
theorem takePayload_eq (limit : Nat) (payload : Bytes) :
    takePayload limit payload = payload.take limit := by
  cases payload <;> simp [takePayload]

/-- The trimmed name is no longer than the field. -/
theorem trimName_length_le (p : Config) (raw : Bytes) : (trimName p raw).length ≤ raw.length := by
  have h := (List.rdropWhile_prefix (fun b => decide (b ∈ p.trimSet))
    (l := nameBytes p.nameHighbit raw)).length_le
  have hn : (nameBytes p.nameHighbit raw).length = raw.length := by
    cases p.nameHighbit <;> simp [nameBytes]
  simpa [trimName, hn] using h

/-- A read of `n` bytes gives at most `n`. -/
theorem memRead_length_le (buf : Bytes) (off n : Nat) : (memRead buf off n).length ≤ n := by
  simp [memRead]

@[simp] theorem hdrLen_eq : hdrLen = 28 := rfl

@[simp] theorem nameLen_eq : nameLen = 16 := rfl

/-- The index field as a number. -/
theorem unpackSri_toNat (b : Byte) : (unpackSri b).toNat = b.toNat % 32 := by
  simp [unpackSri, BitVec.extractLsb'_toNat]

/-- The first loop of TRIMNAME, byte by byte. -/
theorem nameBytes_eq_map (p : NameHighbit) (raw : Bytes) :
    nameBytes p raw = raw.map (fun b => if p = .clear then b &&& 0x7F else b) := by
  cases p <;> simp [nameBytes]

/-- A buffer's byte depends on that offset alone. -/
theorem byteAt_congr (buf buf' : Bytes) (i : Nat) (h : buf[i]? = buf'[i]?) :
    byteAt buf i = byteAt buf' i := by
  simp [byteAt, List.getD_eq_getElem?_getD, h]

/-- A read depends on the offsets it covers alone. -/
theorem memRead_congr (buf buf' : Bytes) (off n : Nat)
    (h : ∀ i, off ≤ i → i < off + n → buf[i]? = buf'[i]?) : memRead buf off n = memRead buf' off n := by
  apply List.ext_getElem?
  intro i
  simp only [memRead, List.getElem?_take, List.getElem?_drop]
  split
  · exact h _ (by omega) (by omega)
  · rfl

/-- The packet as its first eight bytes, the name field, the counter and the payload. -/
theorem buildPacket_form (p : Config) (idx : BitVec 5) (h : Header) (payload : Bytes) :
    ∃ t0 t1 t2 t3, p.tag.toList = [t0, t1, t2, t3] ∧
      buildPacket p idx h payload =
        [t0, t1, t2, t3, pack0 idx h.sp, h.spf, h.fb2, h.fb3] ++
          (padName h.name ++ (le32Bytes h.fc ++ payload.take p.maxPayload)) := by
  have hlen : p.tag.toList.length = 4 := by simp
  rcases ht : p.tag.toList with _ | ⟨t0, _ | ⟨t1, _ | ⟨t2, _ | ⟨t3, _ | ⟨t4, rest⟩⟩⟩⟩⟩ <;>
    rw [ht] at hlen <;> simp at hlen
  exact ⟨t0, t1, t2, t3, rfl, by simp [buildPacket, ht, takePayload_eq]⟩

@[simp] theorem le32Bytes_length (v : Word) : (le32Bytes v).length = 4 := rfl

end Sys2Proof.Machine
end

