-- ==== Sys2Proof/Laws/PerInstr.lean ====
section
/-!
SUPPORT. The family Encoding: each instruction's command word is in its own row of the opcode table
and in no other.
-/

namespace Sys2Proof.Laws.Encoding

/-- The rows that accept the instruction's command word are its own row alone. -/
def Statement (i : Instr) : Prop :=
  (opcodeTable.filter (·.accepts (encodeCommand i).word)).map (·.mnemonic) = [i.mnemonic]

theorem lkhz (idx : BitVec 5) : Statement (.lkhz idx) := by
  revert idx
  simp only [Statement]
  decide

theorem lkidx (hz : Word) : Statement (.lkidx hz) := by
  show (opcodeTable.filter (·.accepts 2)).map (·.mnemonic) = ["LKIDX"]
  decide

theorem decode (buf : Bytes) : Statement (.decode buf) := by
  show (opcodeTable.filter (·.accepts 3)).map (·.mnemonic) = ["DECODE"]
  decide

theorem encode (h : Header) (payload : Bytes) : Statement (.encode h payload) := by
  show (opcodeTable.filter (·.accepts 4)).map (·.mnemonic) = ["ENCODE"]
  decide

theorem observe (h : Header) : Statement (.observe h) := by
  show (opcodeTable.filter (·.accepts 5)).map (·.mnemonic) = ["OBSERVE"]
  decide

end Sys2Proof.Laws.Encoding
end

