-- ==== Sys2Proof/Laws/Rom.lean ====
section
/-!
SUPPORT. What the ROM search can answer, for any ROM.
-/

namespace Sys2Proof.Machine

/-- The search misses exactly when no entry holds the rate. -/
theorem searchRate_eq_none (hz : Word) (l : List (Option (BitVec 20))) (i : Nat) :
    searchRate hz l i = none ↔ ∀ v, some v ∈ l → v.setWidth 32 ≠ hz := by
  induction l generalizing i with
  | nil => simp [searchRate]
  | cons e rest ih =>
    cases e with
    | none => simp [searchRate, ih]
    | some v =>
      simp only [searchRate]
      split
      · rename_i h; simp [h]
      · rename_i h; simp [ih, h]

/-- A hit names the position of an entry that holds the rate, and no earlier entry holds it. -/
theorem searchRate_eq_some (hz : Word) (l : List (Option (BitVec 20))) (i : Nat) (j : BitVec 5)
    (h : searchRate hz l i = some j) :
    ∃ n v, l[n]? = some (some v) ∧ v.setWidth 32 = hz ∧ j = BitVec.ofNat 5 (i + n) ∧
      ∀ m < n, ∀ u, l[m]? = some (some u) → u.setWidth 32 ≠ hz := by
  induction l generalizing i with
  | nil => simp [searchRate] at h
  | cons e rest ih =>
    cases e with
    | none =>
      obtain ⟨n, v, hn, hv, hj, hm⟩ := ih (i + 1) (by simpa [searchRate] using h)
      refine ⟨n + 1, v, by simpa using hn, hv, by rw [hj]; congr 1; omega, fun m hlt u hu => ?_⟩
      cases m with
      | zero => simp at hu
      | succ m => exact hm m (by omega) u (by simpa using hu)
    | some v =>
      simp only [searchRate] at h
      split at h
      · rename_i hv
        exact ⟨0, v, by simp, hv, by simpa using h.symm, by simp⟩
      · rename_i hv
        obtain ⟨n, w, hn, hw, hj, hm⟩ := ih (i + 1) h
        refine ⟨n + 1, w, by simpa using hn, hw, by rw [hj]; congr 1; omega, fun m hlt u hu => ?_⟩
        cases m with
        | zero =>
          have : v = u := by simpa using hu
          exact this ▸ hv
        | succ m => exact hm m (by omega) u (by simpa using hu)

end Sys2Proof.Machine
end

