-- ==== Sys2Proof/Laws/Trk.lean ====
section
/-!
SUPPORT. The validator's table: what is read after a write, and that a write keeps the canonical form.
-/

namespace Sys2Proof.Machine

@[simp] theorem Trk.find_nil (k : Nat) : Trk.find [] k = none := rfl

/-- The key written reads back what was written. -/
@[simp] theorem Trk.find_store_same (t : Trk) (k : Nat) (c : Word) :
    (Trk.store t k c).find k = some c := by
  induction t with
  | nil => simp [Trk.store, Trk.find]
  | cons e rest ih =>
    obtain ⟨k', v'⟩ := e
    simp only [Trk.store]
    split
    · simp [Trk.find]
    · split
      · simp [Trk.find]
      · rename_i hne
        simp [Trk.find, Ne.symm hne, ih]

/-- Every other key reads as before. -/
theorem Trk.find_store_other (t : Trk) (k j : Nat) (c : Word) (h : j ≠ k) :
    (Trk.store t k c).find j = t.find j := by
  induction t with
  | nil => simp [Trk.store, Trk.find, Ne.symm h]
  | cons e rest ih =>
    obtain ⟨k', v'⟩ := e
    simp only [Trk.store]
    split
    · simp [Trk.find, Ne.symm h]
    · split
      · rename_i heq
        simp [Trk.find, Ne.symm h, ← heq]
      · simp [Trk.find, ih]

/-- An entry after a write is the one written or one that was there. -/
theorem Trk.mem_store (t : Trk) (k : Nat) (c : Word) (e : Nat × Word)
    (h : e ∈ Trk.store t k c) : e = (k, c) ∨ e ∈ t := by
  induction t with
  | nil => simpa [Trk.store] using h
  | cons d rest ih =>
    obtain ⟨k', v'⟩ := d
    simp only [Trk.store] at h
    split at h
    · simpa using h
    · split at h
      · rcases List.mem_cons.1 h with h | h
        · exact .inl h
        · exact .inr (List.mem_cons_of_mem _ h)
      · rcases List.mem_cons.1 h with h | h
        · exact .inr (h ▸ List.mem_cons_self)
        · exact (ih h).imp_right (List.mem_cons_of_mem _)

/-- A write keeps the keys strictly rising. -/
theorem Trk.store_sorted (t : Trk) (k : Nat) (c : Word)
    (h : t.Pairwise (fun x y => x.1 < y.1)) :
    (Trk.store t k c).Pairwise (fun x y => x.1 < y.1) := by
  induction t with
  | nil => simp [Trk.store]
  | cons d rest ih =>
    obtain ⟨k', v'⟩ := d
    obtain ⟨hlow, hrest⟩ := List.pairwise_cons.1 h
    simp only [Trk.store]
    split
    · rename_i hlt
      refine List.pairwise_cons.2 ⟨fun e he => ?_, h⟩
      rcases List.mem_cons.1 he with he | he
      · simpa [he] using hlt
      · exact Nat.lt_trans hlt (hlow e he)
    · split
      · rename_i heq
        exact List.pairwise_cons.2 ⟨fun e he => by simpa [heq] using hlow e he, hrest⟩
      · rename_i hnlt hne
        refine List.pairwise_cons.2 ⟨fun e he => ?_, ih hrest⟩
        rcases Trk.mem_store rest k c e he with he | he
        · simp only [he]; omega
        · exact hlow e he

/-- A write of a non-zero counter keeps the canonical form. -/
theorem Trk.store_wf (t : Trk) (k : Nat) (c : Word) (hc : c ≠ 0) (h : t.wf) :
    (Trk.store t k c).wf := by
  refine ⟨Trk.store_sorted t k c h.1, fun e he => ?_⟩
  rcases Trk.mem_store t k c e he with he | he
  · simpa [he] using hc
  · exact h.2 e he

/-- The empty table is in canonical form. -/
theorem Trk.nil_wf : Trk.wf [] := by decide

end Sys2Proof.Machine
end

