-- ==== Sys2Proof/Laws/Step.lean ====
section
/-!
SUPPORT. Everything an instruction and a step can do, said once.
-/

namespace Sys2Proof.Machine

/-- What an accepted command leaves: a response and no other change, the fault of a short DECODE, or
a tracked non-zero counter with a response. -/
inductive Effect (i : Instr) (s : State) : State → Prop where
  | responds (r : Response) : Effect i s (s.respond r)
  | truncated (buf : Bytes) (hi : i = .decode buf) (hlen : buf.length < hdrLen) :
      Effect i s (s.takeFault (.truncatedInput buf.length))
  | tracks (h : Header) (hi : i = .observe h) (hc : h.fc ≠ 0) (r : Response) :
      Effect i s ((s.track (keyOf s.params.keyFn h) h.fc).respond r)

/-- Everything `exec` can do: a block that takes no command stays as it is, and one that does has
one of the three effects. -/
theorem exec_cases (i : Instr) (s : State) :
    (s.accepts = false ∧ exec i s = .next s.silent) ∨
      (s.accepts = true ∧ ∃ t, exec i s = .next t ∧ Effect i s t) := by
  cases ha : s.accepts with
  | false => refine .inl ⟨rfl, ?_⟩; cases i <;> simp [exec, execLkhz, execLkidx, execDecode, execEncode,
      execObserve, State.gate, ha]
  | true =>
    refine .inr ⟨rfl, ?_⟩
    cases i with
    | lkhz idx => exact ⟨_, by simp only [exec, execLkhz, State.gate, ha]; rfl, .responds _⟩
    | lkidx hz => exact ⟨_, by simp only [exec, execLkidx, State.gate, ha]; rfl, .responds _⟩
    | encode h payload => exact ⟨_, by simp only [exec, execEncode, State.gate, ha]; rfl, .responds _⟩
    | decode buf =>
      by_cases hlen : buf.length < hdrLen
      · exact ⟨_, by simp only [exec, execDecode, State.gate, ha, if_pos hlen]; rfl,
          .truncated buf rfl hlen⟩
      · exact ⟨_, by simp only [exec, execDecode, State.gate, ha, if_neg hlen]; rfl, .responds _⟩
    | observe h =>
      by_cases hc : h.fc = 0
      · exact ⟨_, by simp only [exec, execObserve, observeCounter, State.gate, ha, if_pos hc]; rfl,
          .responds _⟩
      · exact ⟨_, by simp only [exec, execObserve, observeCounter, State.gate, ha, if_neg hc]; rfl,
          .tracks h rfl hc _⟩

/-- LKHZ on a ready block. -/
theorem exec_lkhz_ready (s : State) (hf : s.faulted = false) (hr : s.inReset = false)
    (idx : BitVec 5) :
    exec (.lkhz idx) s = .next (s.respond (lookupResponse (indexToHz s.rom idx))) := by
  simp only [exec, execLkhz, s.gate_open _ hf hr]

/-- LKIDX on a ready block. -/
theorem exec_lkidx_ready (s : State) (hf : s.faulted = false) (hr : s.inReset = false) (hz : Word) :
    exec (.lkidx hz) s =
      .next (s.respond (lookupResponse ((hzToIndex s.rom hz).map (·.setWidth 32)))) := by
  simp only [exec, execLkidx, s.gate_open _ hf hr]

/-- DECODE on a ready block. -/
theorem exec_decode_ready (s : State) (hf : s.faulted = false) (hr : s.inReset = false)
    (buf : Bytes) :
    exec (.decode buf) s = .next
      (if buf.length < 28 then s.takeFault (.truncatedInput buf.length)
       else s.respond (decodeResponse s.params s.rom buf)) := by
  simp only [exec, execDecode, s.gate_open _ hf hr, hdrLen_eq]

/-- ENCODE on a ready block. -/
theorem exec_encode_ready (s : State) (hf : s.faulted = false) (hr : s.inReset = false)
    (h : Header) (payload : Bytes) :
    exec (.encode h payload) s = .next (s.respond (encodeResponse s.params s.rom h payload)) := by
  simp only [exec, execEncode, s.gate_open _ hf hr]

/-- OBSERVE on a ready block. -/
theorem exec_observe_ready (s : State) (hf : s.faulted = false) (hr : s.inReset = false)
    (h : Header) : exec (.observe h) s = .next (observeCounter h s) := by
  simp only [exec, execObserve, s.gate_open _ hf hr]

/-- A step with nothing presented. -/
theorem step_nil (s : State) (h : s.inputs = []) : step s = .next s := by simp [step, h]

/-- A step that takes a change of the reset input. -/
theorem step_reset (s : State) (level : Bool) (rest : List Input)
    (h : s.inputs = .reset level :: rest) :
    step s = .next ((s.withInputs rest).driveReset level) := by simp [step, h]

/-- A step that takes a command with an illegal word. -/
theorem step_illegal (s : State) (c : Command) (rest : List Input) (w : Word)
    (h : s.inputs = .command c :: rest) (hd : decodeCommand c = .illegal w) :
    step s = .next ((s.withInputs rest).illegalCommand w) := by simp [step, h, hd]

/-- A step that takes a command whose word is legal. -/
theorem step_legal (s : State) (c : Command) (rest : List Input) (i : Instr)
    (h : s.inputs = .command c :: rest) (hd : decodeCommand c = .legal i) :
    step s = exec i (s.withInputs rest) := by simp [step, h, hd]

/-- Everything a step can do with the input it takes. -/
inductive StepCase (s : State) : State → Prop where
  | idle (h : s.inputs = []) : StepCase s s
  | assertReset (rest : List Input) (h : s.inputs = .reset true :: rest) :
      StepCase s (s.withInputs rest).assertReset
  | releaseReset (rest : List Input) (h : s.inputs = .reset false :: rest) :
      StepCase s (s.withInputs rest).releaseReset
  | notAccepted (c : Command) (rest : List Input) (h : s.inputs = .command c :: rest)
      (ha : s.accepts = false) : StepCase s (s.withInputs rest).silent
  | illegal (c : Command) (rest : List Input) (w : Word) (h : s.inputs = .command c :: rest)
      (ha : s.accepts = true) (hd : decodeCommand c = .illegal w) :
      StepCase s ((s.withInputs rest).takeFault (.illegalCommand w))
  | executes (c : Command) (rest : List Input) (i : Instr) (t : State)
      (h : s.inputs = .command c :: rest) (ha : s.accepts = true)
      (hd : decodeCommand c = .legal i) (he : exec i (s.withInputs rest) = .next t)
      (heffect : Effect i (s.withInputs rest) t) : StepCase s t

/-- Every step answers a next state, in one of the six ways. -/
theorem step_cases (s : State) : ∃ t, step s = .next t ∧ StepCase s t := by
  cases hi : s.inputs with
  | nil => exact ⟨s, step_nil s hi, .idle hi⟩
  | cons x rest =>
    cases x with
    | reset level =>
      cases level
      · exact ⟨_, step_reset s false rest hi, .releaseReset rest hi⟩
      · exact ⟨_, step_reset s true rest hi, .assertReset rest hi⟩
    | command c =>
      cases hd : decodeCommand c with
      | illegal w =>
        refine ⟨_, step_illegal s c rest w hi hd, ?_⟩
        cases ha : s.accepts with
        | false =>
          rw [State.illegalCommand, State.gate, show (s.withInputs rest).accepts = false from ha]
          exact .notAccepted c rest hi ha
        | true =>
          rw [State.illegalCommand, State.gate, show (s.withInputs rest).accepts = true from ha]
          exact .illegal c rest w hi ha hd
      | legal i =>
        rcases exec_cases i (s.withInputs rest) with ⟨ha, he⟩ | ⟨ha, t, he, heffect⟩
        · exact ⟨_, (step_legal s c rest i hi hd).trans he, .notAccepted c rest hi ha⟩
        · exact ⟨t, (step_legal s c rest i hi hd).trans he,
            .executes c rest i t hi ha hd he heffect⟩

end Sys2Proof.Machine
end

