-- ==== Sys2Proof/Tests/Slice0.lean ====
section
/-!
SUPPORT. Checks of the model against 95_test_vectors.md and the encodings of 30_encoding.md, a smoke
test for each check of WellFormed, and a witness that the hypotheses of each statement can be met.
Expected values are the spec's.
-/

namespace Sys2Proof.Tests

open Sys2Proof.Machine

/-! ## Words written out bit by bit from R70 and R71 -/

theorem test_word_lkhz : decodeTableWord 32 0b0000000000000000000_10000_00000001 = some (.lkhz 16) := by
  decide

theorem test_word_lkhz_top : decodeTableWord 32 0b0000000000000000000_11111_00000001 = some (.lkhz 31) := by
  decide

theorem test_word_lkidx : decodeTableWord 32 0b0000000000000000000_00000_00000010 = some (.lkidx 0) := by
  decide

theorem test_word_decode : decodeTableWord 32 0b0000000000000000000_00000_00000011 = some (.decode []) := by
  decide

theorem test_word_encode :
    decodeTableWord 32 0b0000000000000000000_00000_00000100 = some (.encode Header.zero []) := by
  decide

theorem test_word_observe :
    decodeTableWord 32 0b0000000000000000000_00000_00000101 = some (.observe Header.zero) := by
  decide

/-- V7: the illegal words. -/
theorem test_words_illegal :
    ([0x00002001, 0x80000001, 0x00000103, 0x00000000, 0x00000006, 0x000000FF].map
      (decodeTableWord 32)) = [none, none, none, none, none, none] := by
  decide

/-- The table's rows accept no word in common: two of them differ at a bit both fix. -/
theorem test_table_rows_disjoint :
    opcodeTable.Pairwise (fun r q => r.pattern &&& (r.mask &&& q.mask) ≠ q.pattern &&& (r.mask &&& q.mask)) := by
  decide

/-! ## WellFormed: each check refuses an ill-formed term -/

theorem test_legalWord_refuses_opcode_zero : legalWord 0x00000000 = false := by decide

theorem test_legalWord_refuses_reserved_opcode : legalWord 0x00000006 = false := by decide

theorem test_legalWord_refuses_reserved_bit : legalWord 0x00002001 = false := by decide

theorem test_legalWord_refuses_index_on_decode : legalWord 0x00000103 = false := by decide

theorem test_header_fits : { RawHeader.zero with sp := 255, sri := 31, name := [255] }.fits = true := by
  decide

theorem test_header_refuses_each_width :
    [ { RawHeader.zero with sp := 2 ^ 8 }, { RawHeader.zero with sri := 2 ^ 5 },
      { RawHeader.zero with hz := 2 ^ 32 }, { RawHeader.zero with spf := 2 ^ 8 },
      { RawHeader.zero with fb2 := 2 ^ 8 }, { RawHeader.zero with fb3 := 2 ^ 8 },
      { RawHeader.zero with name := [65, 2 ^ 8] }, { RawHeader.zero with fc := 2 ^ 32 } ].map
      RawHeader.fits = List.replicate 8 false := by
  decide

theorem test_command_refuses_each_width :
    [ { rawWord 2 with word := 2 ^ 32 }, { rawWord 2 with a := 2 ^ 32 },
      { rawWord 5 with h := { RawHeader.zero with fc := 2 ^ 32 } },
      { rawWord 3 with b := [0, 2 ^ 8] } ].map RawCommand.toCommand = [none, none, none, none] := by
  decide

/-! ## One step of each command -/

/-- This hardware's parameters with `P_MAX_PAYLOAD = 4`, the instance of vector E5. -/
def hw : State := { State.reset with params := { Config.hardware with maxPayload := 4 } }

/-- What an outcome's next state gives back. -/
def given (o : Host.Outcome State Fault Refusal) : Option Result :=
  match o with
  | .next t => t.output
  | _ => none

/-- The validator's entries an outcome's next state holds. -/
def entries (o : Host.Outcome State Fault Refusal) : Trk :=
  match o with
  | .next t => t.trk
  | _ => []

/-- Vector E2's packet. -/
def e2 : Bytes :=
  [ 0x56, 0x42, 0x41, 0x4E, 0x70, 0x3F, 0x01, 0x00, 0x53, 0x74, 0x72, 0x65, 0x61, 0x6D, 0x31, 0x00,
    0x00, 0x00, 0x00, 0x00, 0x00, 0x00, 0x00, 0x00, 0x01, 0x00, 0x00, 0x00 ]

/-- Vector D2's Header. -/
def d2 : Header :=
  { sp := 0x60, sri := 16, hz := 44100, spf := 0x3F, fb2 := 0x01, fb3 := 0x00
    name := [0x53, 0x74, 0x72, 0x65, 0x61, 0x6D, 0x31], fc := 1 }

/-- A Header with this counter. -/
def counted (c : Word) : Header := { Header.zero with fc := c }

/-- V1: LKHZ 16. -/
theorem test_lkhz_16 : given (exec (.lkhz 16) hw) =
    some (.response { responseOf 0 with valid := true, value := 44100 }) := by decide

/-- P3, step 1: LKHZ 21 is a miss. -/
theorem test_lkhz_reserved : given (exec (.lkhz 21) hw) = some (.response (responseOf 0)) := by decide

/-- V1: the rate of index 0 is a hit whose value is 0. -/
theorem test_lkidx_6000 : given (exec (.lkidx 6000) hw) =
    some (.response { responseOf 0 with valid := true, value := 0 }) := by decide

/-- V1: LKIDX misses. -/
theorem test_lkidx_44101 : given (exec (.lkidx 44101) hw) = some (.response (responseOf 0)) := by decide

/-- D4: D2 with a foreign tag. -/
theorem test_decode_d4 : given (exec (.decode ([0, 0, 0, 0] ++ e2.drop 4)) hw) =
    some (.response { responseOf 0 with hdr := some d2 }) := by decide

/-- D10: ten bytes with a reserved index fault. -/
theorem test_decode_d10 :
    given (exec (.decode [0x56, 0x42, 0x41, 0x4E, 0x19, 0, 0, 0, 0, 0]) hw) =
      some (.fault (.truncatedInput 10)) := by decide

/-- E5: the tag bits of 0xFF, and a payload cut to four bytes. -/
theorem test_encode_e5 :
    given (exec (.encode { Header.zero with sp := 0xFF, hz := 6000, spf := 0x10, fb2 := 0x20, fb3 := 0x30,
                                            name := [0x78], fc := 0x100 }
      [0, 1, 2, 3, 4, 5, 6, 7, 8, 9]) hw) =
    some (.response { responseOf 0 with out := some (
      [0x56, 0x42, 0x41, 0x4E, 0xE0, 0x10, 0x20, 0x30, 0x78] ++ zeros 15 ++
        [0x00, 0x01, 0x00, 0x00, 0x00, 0x01, 0x02, 0x03]) }) := by decide

/-- E10: the index does not rescue a rate the ROM lacks. -/
theorem test_encode_e10 :
    given (exec (.encode { Header.zero with sri := 3, hz := 44101 } []) hw) =
      some (.response (responseOf 2)) := by decide

/-- P2, step 5: a regression, and the entry after it. -/
theorem test_observe_regression :
    given (exec (.observe (counted 50)) { hw with trk := [(0, 103)] }) =
      some (.response { responseOf 0 with diag := .anomaly 103 50 }) ∧
    entries (exec (.observe (counted 50)) { hw with trk := [(0, 103)] }) = [(0, 50)] := by decide

/-- V6: the largest gap. -/
theorem test_observe_largest_gap :
    given (exec (.observe (counted 0xFFFFFFFF)) { hw with trk := [(0, 1)] }) =
      some (.response { responseOf 0 with diag := .info 0xFFFFFFFE }) := by decide

/-- V3: a name with an interior null, trimmed bytes at its end, and bit 7 kept. -/
theorem test_trim_keep :
    trimName hw.params ([0x41, 0x42, 0x00, 0x43, 0x80, 0x0A, 0x7F] ++ zeros 9) =
      [0x41, 0x42, 0x00, 0x43, 0x80] := by decide

/-- V3: 0xFF becomes 0x7F and is trimmed. -/
theorem test_trim_clear :
    trimName { hw.params with nameHighbit := .clear } ([0x41, 0x42, 0xFF] ++ zeros 13) = [0x41, 0x42] := by
  decide

/-- V8: reset clears a fault and the entry. -/
theorem test_reset_after_fault :
    step { hw with trk := [(0, 42)], faulted := true, inputs := [.reset true] } =
      .next { hw with inReset := true } := by rfl

/-- R80: a program of two lines. -/
theorem test_assemble_program :
    assembleProgram "LKHZ 16\nLKIDX 48000".toList = some [rawWord 0x1001, { rawWord 2 with a := 48000 }] := by
  decide

/-! ## Witnesses: the hypotheses of each statement can be met -/

/-- A command with this word and nothing on its channels. -/
def bare (w : Word) : Command := { word := w, a := 0, h := Header.zero, b := [] }

/-- The block with these inputs presented. -/
def presented (xs : List Input) : State := { hw with inputs := xs }

theorem witness_LegalWordsAreTheAssignedOnes :
    (bare 0x00000001).word = 0x00000001#32 ||| ((0 : BitVec 5).setWidth 32 <<< 8) ∧
    (bare 0x00001F01).word = 0x00000001#32 ||| ((31 : BitVec 5).setWidth 32 <<< 8) ∧
    (bare 2).word = 2 ∧ (bare 3).word = 3 ∧ (bare 4).word = 4 ∧ (bare 5).word = 5 ∧
    (∀ idx : BitVec 5, (bare 6).word ≠ 0x00000001#32 ||| (idx.setWidth 32 <<< 8)) ∧
    (∀ idx : BitVec 5, (bare 0x00002001).word ≠ 0x00000001#32 ||| (idx.setWidth 32 <<< 8)) := by decide

theorem witness_DecoderAgreesWithTheTable :
    legalWord (bare 0x00001F01).word = true ∧ legalWord (bare 0x00002001).word = false ∧
    decodeCommand (bare 5) = .legal (.observe Header.zero) := by decide

theorem witness_VerdictDependsOnTheWordAlone :
    (bare 2).word = { bare 2 with a := 7 }.word ∧ bare 2 ≠ { bare 2 with a := 7 } := by decide

theorem witness_UnlistedChannelsAreNotRead :
    decodeCommand { bare 1 with a := 7, b := [1] } = .legal (.lkhz 0) ∧
    decodeCommand { bare 2 with b := [1] } = .legal (.lkidx 0) ∧
    decodeCommand { bare 3 with a := 7, b := [1] } = .legal (.decode [1]) ∧
    decodeCommand { bare 4 with a := 7, b := [1] } = .legal (.encode Header.zero [1]) ∧
    decodeCommand { bare 5 with a := 7, b := [1] } = .legal (.observe Header.zero) := by decide

theorem witness_BoundaryRefusesOutOfWidthValues :
    (rawWord (2 ^ 32 - 1)).toCommand = some (bare 0xFFFFFFFF) ∧ (rawWord (2 ^ 32)).toCommand = none := by decide

theorem witness_StepRunsTheDecodedCommand :
    (presented [.command (bare 1)]).inputs = .command (bare 1) :: [] ∧
    decodeCommand (bare 1) = .legal (.lkhz 0) := by decide

theorem witness_IdleBlockDoesNothing : (presented []).inputs = [] := by decide

theorem witness_IllegalWordFaults :
    (presented [.command (bare 0)]).Ready ∧
    (presented [.command (bare 0)]).inputs = .command (bare 0) :: [] ∧
    illegalBits (bare 0).word ∧ illegalBits (bare 6).word ∧ illegalBits (bare 0xFF).word ∧
    illegalBits (bare 0x00002001).word ∧ illegalBits (bare 0x00000102).word ∧
    illegalBits (bare 0x80000005).word ∧ ¬ illegalBits (bare 0x00001F01).word ∧
    ¬ illegalBits (bare 5).word := by decide

theorem witness_FaultsHaveTheirCause :
    (∃ t, step (presented [.command (bare 6)]) = .next t ∧
      t.output = some (.fault (.illegalCommand 6))) ∧
    ∃ t, step (presented [.command (bare 3)]) = .next t ∧
      t.output = some (.fault (.truncatedInput 0)) :=
  ⟨⟨_, rfl, by decide⟩, ⟨_, rfl, by decide⟩⟩

theorem witness_FaultedBlockTakesNoCommand :
    { presented [.command (bare 1)] with faulted := true }.faulted = true ∧
    { presented [.command (bare 1)] with faulted := true }.inputs = .command (bare 1) :: [] := by decide

theorem witness_QuiescentUntilReset :
    { presented [.command (bare 1)] with faulted := true }.Quiescent ∧
    ∀ x ∈ { presented [.command (bare 1)] with faulted := true }.inputs, ∀ level, x ≠ .reset level := by
  decide

theorem witness_ResetEmptiesTheTable :
    (presented [.reset true]).inputs = .reset true :: [] ∧
    { presented [.command (bare 1)] with inReset := true }.inReset = true ∧
    { presented [.command (bare 1)] with inReset := true }.inputs = .command (bare 1) :: [] ∧
    (presented [.reset false]).inputs = .reset false :: [] := by decide

theorem witness_OnlyResetClearsTheFaultMark :
    (∃ t, step (presented [.command (bare 6)]) = .next t ∧ (presented [.command (bare 6)]).faulted = false ∧
      t.output = some (.fault (.illegalCommand 6)) ∧ t.faulted = true) ∧
    ∃ t, step { presented [.reset true] with faulted := true } = .next t ∧ t.faulted = false :=
  ⟨⟨_, rfl, by decide⟩, ⟨_, rfl, by decide⟩⟩

/-- The invariant's hypothesis, at a state with an entry that a run reaches. -/
theorem witness_EveryStepKeepsTheInvariant :
    { presented [.reset true] with trk := [(0, 7)] }.Inv ∧
    ∃ t, step { presented [.reset true] with trk := [(0, 7)] } = .next t :=
  ⟨⟨by decide, by decide, fun _ => by decide, by decide,
    fun f h => (nomatch (h : (none : Option Result) = some (.fault f))),
    fun r h => (nomatch (h : (none : Option Result) = some (.response r)))⟩, ⟨_, rfl⟩⟩

theorem witness_NoStepWritesRomOrParameters : ∃ t, step (presented [.command (bare 5)]) = .next t :=
  ⟨_, rfl⟩

theorem witness_DutifulCallersNeverFault :
    (presented [.command { bare 3 with b := e2 }, .reset true]).faulted = false ∧
    ∀ x ∈ (presented [.command { bare 3 with b := e2 }, .reset true]).inputs, dutifulInput x = true := by
  decide

/-- The duty's boundary: 28 bytes keep it, 27 do not. -/
theorem witness_CodecTrafficLeavesTheValidator :
    (∀ x ∈ [Input.command { bare 3 with b := e2 }, .command (bare 5), .reset false], dutifulInput x = true) ∧
    dutifulInput (.command { bare 3 with b := e2.take 27 }) = false ∧
    [Input.command { bare 3 with b := e2 }, .command (bare 5), .reset false].filter reachesValidator =
      [.command (bare 5), .reset false] := by decide

theorem witness_RateSearchFindsTheFirstMatch :
    hw.rom = romContents ∧ (44101 : Word).toNat ∉ sampleRates ∧ (0 : Word).toNat ∉ sampleRates ∧
    hzToIndex hw.rom 705600 = some 20 ∧ hzToIndex hw.rom 44101 = none := by decide

theorem witness_RomLookupsAreInverse :
    (0 : BitVec 5).toNat ≤ 20 ∧ (20 : BitVec 5).toNat ≤ 20 ∧
    indexToHz romContents 20 = indexToHz romContents 20 ∧
    hzToIndex romContents 6000 = some 0 := by decide

theorem witness_LkhzAnswersTheRate :
    hw.rom = romContents ∧ hw.Ready ∧ decodeCommand (bare 0x00001501) = .legal (.lkhz 21) := by decide

theorem witness_LkidxAnswersTheIndex :
    hw.rom = romContents ∧ hw.Ready ∧ sampleRates[0]? = some (6000 : Word).toNat ∧
    sampleRates[20]? = some (705600 : Word).toNat ∧ (5999 : Word).toNat ∉ sampleRates := by decide

theorem witness_PadNameFillsSixteenBytes :
    0 < 16 ∧ 15 < 16 ∧ (padName [0x41])[0]? = some 0x41 ∧ (padName [0x41])[15]? = some 0 := by decide

theorem witness_TrimNameRemovesTheTrailingRun :
    (trimName hw.params ([0x41, 0x20] ++ zeros 14)).getLast? = some 0x20 ∧
    (0x1F : Byte) ∈ Config.hardware.trimSet ∧ (0x7F : Byte) ∈ Config.hardware.trimSet ∧
    (0x20 : Byte) ∉ Config.hardware.trimSet ∧ (0x80 : Byte) ∉ Config.hardware.trimSet := by decide

theorem witness_ShortBufferFaults : hw.Ready ∧ (e2.take 27).length < 28 := by decide

/-- The two cases at their boundary, index 21 and index 20, on 28 bytes. -/
theorem witness_DecodeFollowsItsProcedure :
    hw.rom = romContents ∧ hw.Ready ∧ 28 ≤ (e2.set 4 0x15).length ∧ 28 ≤ (e2.set 4 0x14).length ∧
    21 ≤ ((e2.set 4 0x15).getD 4 0).toNat % 32 ∧ ¬ 21 ≤ ((e2.set 4 0x14).getD 4 0).toNat % 32 ∧
    decodeCommand { bare 3 with b := e2 } = .legal (.decode e2) := by decide

theorem witness_DecodeReadsOnlyTheStructuredRegion :
    28 ≤ e2.length ∧ 28 ≤ ([0, 0, 0, 0] ++ e2.drop 4 ++ [9]).length ∧
    (∀ i, i < 28 → 4 ≤ i → e2[i]? = ([0, 0, 0, 0] ++ e2.drop 4 ++ [9])[i]?) ∧
    e2 ≠ [0, 0, 0, 0] ++ e2.drop 4 ++ [9] := by decide

theorem witness_DecodeDoesNotBranchOnTheTag :
    hw.Ready ∧ 28 ≤ e2.length ∧ unpackSri 0xF0 = unpackSri (e2.getD 4 0) ∧ e2.getD 4 0 ≠ 0xF0 := by decide

theorem witness_DecodedHeaderIsInRange :
    ∃ t r, hw.rom = romContents ∧ exec (.decode e2) hw = .next t ∧ t.output = some (.response r) ∧
      r.hdr = some d2 ∧ hw.params.spForm = .inplace :=
  ⟨_, { responseOf 0 with hdr := some d2 }, rfl, rfl, by decide, rfl, rfl⟩

/-- The same with the shifted form (vector D12). -/
theorem witness_DecodedHeaderIsInRange_shifted :
    ∃ t r, exec (.decode e2) { hw with params := { hw.params with spForm := .shifted } } = .next t ∧
      t.output = some (.response r) ∧ r.hdr = some { d2 with sp := 0x03 } :=
  ⟨_, { responseOf 0 with hdr := some { d2 with sp := 0x03 } }, rfl, by decide, rfl⟩

theorem witness_EncodeFollowsItsProcedure :
    hw.rom = romContents ∧ hw.Ready ∧ sampleRates[16]? = some d2.hz.toNat ∧
    { d2 with hz := 99999 }.hz.toNat ∉ sampleRates ∧
    decodeCommand { bare 4 with h := d2, b := [1] } = .legal (.encode d2 [1]) := by decide

theorem witness_EncodeOutputShape :
    ∃ t r, hw.rom = romContents ∧ exec (.encode d2 []) hw = .next t ∧ t.output = some (.response r) ∧
      r.out = some e2 :=
  ⟨_, { responseOf 0 with out := some e2 }, rfl, rfl, by decide, rfl⟩

theorem witness_PayloadIsTruncated :
    ∃ t r, { hw.params with maxPayload := 0 }.maxPayload = 0 ∧
      exec (.encode d2 [1]) { hw with params := { hw.params with maxPayload := 0 } } = .next t ∧
      t.output = some (.response r) ∧ r.out = some e2 :=
  ⟨_, { responseOf 0 with out := some e2 }, rfl, rfl, by decide, rfl⟩

/-- The name clause at its boundaries: 16 bytes and 17, a last byte trimmed and not, bit 7 set. -/
theorem witness_EncodeThenDecode :
    hw.rom = romContents ∧ hw.Ready ∧ hzToIndex hw.rom d2.hz = some 16 ∧ 0 ∈ hw.params.trimSet ∧
    trimName hw.params (padName (List.replicate 16 0x41)) = List.replicate 16 0x41 ∧
    trimName hw.params (padName (List.replicate 17 0x41)) = List.replicate 16 0x41 ∧
    trimName hw.params (padName [0x41, 0x0A]) = [0x41] ∧
    trimName { hw.params with nameHighbit := .clear } (padName [0xC1]) = [0x41] := by decide

theorem witness_DecodeThenEncode :
    ∃ t r, hw.rom = romContents ∧ hw.Ready ∧ 28 ≤ (e2 ++ [1, 2, 3, 4, 5]).length ∧
      exec (.decode (e2 ++ [1, 2, 3, 4, 5])) hw = .next t ∧ t.output = some (.response r) ∧
      r.hdr = some d2 ∧ hw.params.spForm = .inplace :=
  ⟨_, { responseOf 0 with hdr := some d2 }, rfl, by decide, by decide, rfl, by decide, rfl, rfl⟩

theorem witness_ObserveFollowsItsProcedure :
    hw.Ready ∧ (counted 0).fc = 0 ∧ (counted 1).fc ≠ 0 ∧ hw.trk.wf ∧
    Trk.find [(0, 100)] (keyOf hw.params.keyFn (counted 101)) = some 100 ∧
    (1 : Nat) ≠ keyOf hw.params.keyFn (counted 101) ∧
    decodeCommand { bare 5 with h := counted 1 } = .legal (.observe (counted 1)) := by decide

/-- Below, at and above the entry. -/
theorem witness_GapNeverWraps :
    { hw with trk := [(0, 100)] }.Ready ∧
    { hw with trk := [(0, 100)] }.trk.find (keyOf hw.params.keyFn (counted 100)) = some 100 ∧
    (100 : Word) ≠ 0 ∧ (counted 50).fc.toNat < (100 : Word).toNat ∧
    (100 : Word).toNat ≤ (counted 100).fc.toNat ∧ (100 : Word).toNat ≤ (counted 101).fc.toNat := by decide

theorem witness_WrapIsReportedAsAnomaly :
    { hw with trk := [(0, 0xFFFFFFFF)] }.Ready ∧
    { hw with trk := [(0, 0xFFFFFFFF)] }.trk.find (keyOf hw.params.keyFn (counted 1)) = some 0xFFFFFFFF ∧
    (counted 0).fc = 0 ∧ (counted 1).fc = 1 := by decide

theorem witness_ObserveNeverFailsOrDisturbs :
    hw.Ready ∧ ∀ h, Instr.lkhz 3 ≠ .observe h :=
  ⟨by decide, fun _ h => (nomatch h)⟩

theorem witness_SingleKeyIsSharedByAllStreams :
    hw.Ready ∧ hw.params.keyFn = .constK0 ∧ { counted 500 with name := [0x41] }.fc ≠ 0 ∧
    { counted 10 with name := [0x42] }.fc ≠ 0 := by decide

theorem witness_EntryLifetime :
    (∃ t, step (presented [.command { bare 5 with h := counted 9 }]) = .next t ∧
      t.trk.find 0 ≠ (presented [.command { bare 5 with h := counted 9 }]).trk.find 0) ∧
    (∃ t, step { presented [.reset true] with trk := [(0, 9)] } = .next t ∧
      t.trk.find 0 ≠ { presented [.reset true] with trk := [(0, 9)] }.trk.find 0) ∧
    (presented [.command { bare 5 with h := counted 9 }]).Ready ∧
    decodeCommand { bare 5 with h := counted 9 } = .legal (.observe (counted 9)) ∧
    (counted 9).fc ≠ 0 :=
  ⟨⟨_, rfl, by decide⟩, ⟨_, rfl, by decide⟩, by decide⟩

theorem witness_EntryIsTheLastNonZeroCounter :
    (presented ([counted 5, counted 0].map (fun h => .command (encodeCommand (.observe h))) ++
      [.reset true])).Ready ∧
    ([counted 5, counted 0].filter (fun h => decide (h.fc ≠ 0 ∧ keyOf hw.params.keyFn h = 0))).getLast? =
      some (counted 5) := by decide

theorem witness_IdempotentButForObserve :
    (∀ h, Instr.decode e2 ≠ .observe h) ∧ hw.Ready ∧
    (∃ t, exec (.decode e2) hw = .next t ∧ t.Ready) ∧
    hw.params = { hw with trk := [(0, 9)] }.params ∧ hw.rom = { hw with trk := [(0, 9)] }.rom ∧
    (counted 9).fc ≠ 0 :=
  ⟨fun _ h => (nomatch h), by decide, ⟨_, rfl, by decide⟩, rfl, rfl, by decide⟩

theorem witness_CodecCommandsLeaveTheState :
    (∀ h, Instr.decode [] ≠ .observe h) ∧ ∃ t, exec (.decode []) hw = .next t ∧ t.faulted = true :=
  ⟨fun _ h => (nomatch h), _, rfl, by decide⟩

theorem witness_ObserveLeavesAllButItsEntry :
    (∃ t, exec (.observe (counted 9)) hw = .next t) ∧
    (1 : Nat) ≠ keyOf hw.params.keyFn (counted 9) ∧ (counted 0).fc = 0 ∧
    ¬ { hw with faulted := true }.Ready :=
  ⟨⟨_, rfl⟩, by decide, by decide, by decide⟩

theorem witness_StatusCodesByCommand :
    (∃ t, exec (.decode (e2.set 4 0x15)) hw = .next t ∧ t.output = some (.response (responseOf 1))) ∧
    (∃ t, exec (.encode Header.zero []) hw = .next t ∧ t.output = some (.response (responseOf 2))) ∧
    ∃ t, exec (.lkhz 31) hw = .next t ∧ t.output = some (.response (responseOf 0)) :=
  ⟨⟨_, rfl, by decide⟩, ⟨_, rfl, by decide⟩, ⟨_, rfl, by decide⟩⟩

theorem witness_OnlyNamedResponseFields :
    (∃ t, exec (.observe (counted 9)) hw = .next t ∧ t.output = some (.response (responseOf 0))) ∧
    (∀ idx, Instr.observe (counted 9) ≠ .lkhz idx) ∧ (∀ hz, Instr.observe (counted 9) ≠ .lkidx hz) ∧
    (∀ buf, Instr.observe (counted 9) ≠ .decode buf) ∧
    (∀ h p, Instr.observe (counted 9) ≠ .encode h p) ∧ (∀ h, Instr.lkhz 0 ≠ .observe h) :=
  ⟨⟨_, rfl, by decide⟩, fun _ h => (nomatch h), fun _ h => (nomatch h), fun _ h => (nomatch h),
    fun _ _ h => (nomatch h), fun _ h => (nomatch h)⟩

/-- The host's two questions, on the first row: `step` runs the instruction the decoder gives, as the
first one after reset. -/
theorem test_withFetchWord :
    step (State.reset.withFetchWord 32 0x00001001) = exec (.lkhz 16) State.reset := by rfl

end Sys2Proof.Tests
end

namespace Sys2Proof.Machine

/-! ## Steps and the inputs they take -/

/-- An accepted command's effect leaves what is still presented. -/
theorem Effect.inputs_eq {i : Instr} {s t : State} (h : Effect i s t) : t.inputs = s.inputs := by
  cases h <;> rfl

/-- A step takes the next input and no other. -/
theorem step_inputs {s t : State} (h : step s = .next t) : t.inputs = s.inputs.tail := by
  obtain ⟨u, hu, hcase⟩ := step_cases s
  cases hu.symm.trans h
  cases hcase with
  | idle hi => simp [hi]
  | assertReset rest hi => simp [hi]
  | releaseReset rest hi => simp [hi]
  | notAccepted c rest hi ha => simp [hi]
  | illegal c rest w hi ha hd => simp [hi]
  | executes c rest i t hi ha hd he heffect => simp [hi, heffect.inputs_eq]

/-- A run that begins with this step. -/
theorem runSteps_succ (n : Nat) {s t : State} (h : step s = .next t) :
    runSteps (n + 1) s = runSteps n t := by
  simp [runSteps, h]

/-- Settles O9: the step's own law for a command whose word is legal. -/
theorem stepRunsTheDecodedCommand : Obligations.StepRunsTheDecodedCommand :=
  fun s c rest i hi hd => step_legal s c rest i hi hd

/-! ## Codec traffic and the validator

The two runs of O23 are related by `State.Agrees`: the same validator entries, the same switches of the
gate, and the same parameters, which the key function is one of (R26). -/

/-- Two blocks that the validator cannot tell apart: they may differ in the ROM, in what is presented
and in what was given back. -/
structure State.Agrees (s t : State) : Prop where
  params : s.params = t.params
  trk : s.trk = t.trk
  faulted : s.faulted = t.faulted
  inReset : s.inReset = t.inReset

theorem State.Agrees.refl (s : State) : s.Agrees s := ⟨rfl, rfl, rfl, rfl⟩

theorem State.Agrees.trans {s t u : State} (h : s.Agrees t) (h' : t.Agrees u) : s.Agrees u :=
  ⟨h.params.trans h'.params, h.trk.trans h'.trk, h.faulted.trans h'.faulted,
    h.inReset.trans h'.inReset⟩

/-- Taking an input from the port does not reach the validator. -/
theorem State.Agrees.withInputs {s t : State} (h : s.Agrees t) (xs ys : List Input) :
    (s.withInputs xs).Agrees (t.withInputs ys) :=
  ⟨h.params, h.trk, h.faulted, h.inReset⟩

/-- The gate of two agreeing blocks opens for both or for neither. -/
theorem State.Agrees.gate {s t : State} {run : State → State} (h : s.Agrees t)
    (hrun : (run s).Agrees (run t)) : (s.gate run).Agrees (t.gate run) := by
  have ha : s.accepts = t.accepts := by simp [State.accepts, h.faulted, h.inReset]
  unfold State.gate
  rw [ha]
  split
  · exact hrun
  · exact ⟨h.params, h.trk, h.faulted, h.inReset⟩

/-- An accepted OBSERVE writes the same entry on agreeing blocks. -/
theorem State.Agrees.observeCounter {s t : State} (h : s.Agrees t) (hdr : Header) :
    (observeCounter hdr s).Agrees (observeCounter hdr t) := by
  unfold Machine.observeCounter
  split
  · exact ⟨h.params, h.trk, h.faulted, h.inReset⟩
  · exact ⟨h.params, by simp [h.params, h.trk], h.faulted, h.inReset⟩

/-- Driving the reset input does the same to agreeing blocks. -/
theorem State.Agrees.driveReset {s t : State} (h : s.Agrees t) (level : Bool) :
    (s.driveReset level).Agrees (t.driveReset level) := by
  cases level
  · exact ⟨h.params, h.trk, h.faulted, rfl⟩
  · exact ⟨h.params, rfl, rfl, rfl⟩

/-- An input that reaches the validator is a change of the reset input or an OBSERVE. -/
theorem reachesValidator_cases {x : Input} (h : reachesValidator x = true) :
    (∃ level, x = .reset level) ∨
      ∃ c hdr, x = .command c ∧ decodeCommand c = .legal (.observe hdr) := by
  cases x with
  | reset level => exact .inl ⟨level, rfl⟩
  | command c =>
    refine .inr ⟨c, ?_⟩
    dsimp only [reachesValidator] at h
    split at h
    case h_1 hdr hd => exact ⟨hdr, rfl, hd⟩
    case h_2 => cases h

/-- A dutiful input that does not reach the validator is a legal command other than OBSERVE, with at
least 28 bytes if it is DECODE. -/
theorem dutiful_not_reachesValidator {x : Input} (hd : dutifulInput x = true)
    (hr : reachesValidator x = false) :
    ∃ c i, x = .command c ∧ decodeCommand c = .legal i ∧ (∀ hdr, i ≠ .observe hdr) ∧
      ∀ buf, i = .decode buf → hdrLen ≤ buf.length := by
  cases x with
  | reset level => cases hr
  | command c =>
    cases hc : decodeCommand c with
    | illegal w => simp [dutifulInput, dutifulCommand, hc] at hd
    | legal i =>
      refine ⟨c, i, rfl, hc, ?_, ?_⟩
      · rintro hdr rfl
        simp [reachesValidator, hc] at hr
      · rintro buf rfl
        simpa [dutifulInput, dutifulCommand, hc] using hd

/-- A legal command other than OBSERVE and a short DECODE leaves the validator and the fault mark. -/
theorem exec_agrees {i : Instr} (s : State) (hobs : ∀ hdr, i ≠ .observe hdr)
    (hlen : ∀ buf, i = .decode buf → hdrLen ≤ buf.length) :
    ∃ t, exec i s = .next t ∧ t.Agrees s := by
  rcases exec_cases i s with ⟨-, he⟩ | ⟨-, t, he, heffect⟩
  · exact ⟨_, he, rfl, rfl, rfl, rfl⟩
  · refine ⟨t, he, ?_⟩
    cases heffect with
    | responds r => exact ⟨rfl, rfl, rfl, rfl⟩
    | truncated buf hi hshort => exact absurd (hlen buf hi) (Nat.not_le.mpr hshort)
    | tracks hdr hi hc r => exact absurd hi (hobs hdr)

/-- A step over an input that the filtered run drops stays in agreement with where it began. -/
theorem step_dropped_agrees {s : State} {x : Input} {rest : List Input} (hi : s.inputs = x :: rest)
    (hd : dutifulInput x = true) (hr : reachesValidator x = false) :
    ∃ t, step s = .next t ∧ t.Agrees s := by
  obtain ⟨c, i, rfl, hc, hobs, hlen⟩ := dutiful_not_reachesValidator hd hr
  obtain ⟨t, ht, hagree⟩ := exec_agrees (s.withInputs rest) hobs hlen
  exact ⟨t, (step_legal s c rest i hi hc).trans ht,
    hagree.trans ⟨rfl, rfl, rfl, rfl⟩⟩

/-- A step over an input that both runs take keeps their agreement. -/
theorem step_kept_agrees {s s' : State} {x : Input} {rest rest' : List Input}
    (hagree : s.Agrees s') (hi : s.inputs = x :: rest) (hi' : s'.inputs = x :: rest')
    (hr : reachesValidator x = true) :
    ∃ t t', step s = .next t ∧ step s' = .next t' ∧ t.Agrees t' := by
  have htaken := hagree.withInputs rest rest'
  obtain ⟨level, rfl⟩ | ⟨c, hdr, rfl, hc⟩ := reachesValidator_cases hr
  · exact ⟨_, _, step_reset s level rest hi, step_reset s' level rest' hi', htaken.driveReset level⟩
  · exact ⟨_, _, step_legal s c rest _ hi hc, step_legal s' c rest' _ hi' hc,
      htaken.gate (htaken.observeCounter hdr)⟩

/-- The simulation behind O23: from agreeing blocks, a run over dutiful inputs and the run over those of
them that reach the validator end in agreeing blocks. -/
theorem runSteps_filter_agrees {xs : List Input} (hduty : ∀ x ∈ xs, dutifulInput x = true) :
    ∀ {s s' : State}, s.Agrees s' → s.inputs = xs → s'.inputs = xs.filter reachesValidator →
      ∃ t t', runSteps xs.length s = .next t ∧
        runSteps (xs.filter reachesValidator).length s' = .next t' ∧ t.Agrees t' := by
  induction xs with
  | nil => exact fun hagree _ _ => ⟨_, _, rfl, rfl, hagree⟩
  | cons x xs ih =>
    intro s s' hagree hi hi'
    obtain ⟨hx, hxs⟩ := List.forall_mem_cons.mp hduty
    cases hr : reachesValidator x with
    | false =>
      rw [List.filter_cons_of_neg (by simp [hr])] at hi' ⊢
      obtain ⟨t, ht, hstep⟩ := step_dropped_agrees hi hx hr
      rw [List.length_cons, runSteps_succ _ ht]
      exact ih hxs (hstep.trans hagree) (by simp [step_inputs ht, hi]) hi'
    | true =>
      rw [List.filter_cons_of_pos hr] at hi' ⊢
      obtain ⟨t, t', ht, ht', hstep⟩ := step_kept_agrees hagree hi hi' hr
      rw [List.length_cons, List.length_cons, runSteps_succ _ ht, runSteps_succ _ ht']
      exact ih hxs hstep (by simp [step_inputs ht, hi]) (by simp [step_inputs ht', hi'])

/-- Settles O23, by the simulation between the whole run and the filtered one. -/
theorem codecTrafficLeavesTheValidator : Obligations.CodecTrafficLeavesTheValidator := by
  intro s xs hduty
  obtain ⟨t, t', ht, ht', hagree⟩ :=
    runSteps_filter_agrees hduty ((State.Agrees.refl s).withInputs _ _) rfl rfl
  exact ⟨t, t', ht, ht', hagree.trk, hagree.faulted, hagree.inReset⟩

/-! ## The frame counter's bytes -/

/-- A byte written above the bits a word uses adds to its value. -/
theorem toNat_or_byte_shiftLeft {k : Nat} (hk : k ≤ 24) (acc : Word) (b : Byte)
    (hacc : acc.toNat < 2 ^ k) :
    (acc ||| b.setWidth 32 <<< k).toNat = acc.toNat + 2 ^ k * b.toNat := by
  have hpow : 2 ^ k ≤ 2 ^ 24 := Nat.pow_le_pow_right (by decide) hk
  have hfits : 2 ^ k * b.toNat < 2 ^ 32 := calc
    2 ^ k * b.toNat ≤ 2 ^ 24 * b.toNat := Nat.mul_le_mul_right _ hpow
    _ < 2 ^ 32 := by omega
  have hshift : (b.setWidth 32 <<< k).toNat = 2 ^ k * b.toNat := by
    rw [BitVec.toNat_shiftLeft, BitVec.toNat_setWidth_of_le (by decide), Nat.shiftLeft_eq, Nat.mul_comm,
      Nat.mod_eq_of_lt hfits]
  rw [BitVec.toNat_or, hshift, Nat.or_comm, ← Nat.two_pow_add_eq_or_of_lt hacc, Nat.add_comm]

/-- LE32 as a number: the bytes occupy disjoint bits, so `or` is addition (R9). -/
theorem le32_toNat (b0 b1 b2 b3 : Byte) :
    (le32 b0 b1 b2 b3).toNat =
      b0.toNat + 2 ^ 8 * b1.toNat + 2 ^ 16 * b2.toNat + 2 ^ 24 * b3.toNat := by
  have h0 : (b0.setWidth 32).toNat = b0.toNat := BitVec.toNat_setWidth_of_le (by decide)
  have h1 := toNat_or_byte_shiftLeft (k := 8) (by decide) (b0.setWidth 32) b1 (by omega)
  have h2 := toNat_or_byte_shiftLeft (k := 16) (by decide) _ b2 (by rw [h1]; omega)
  have h3 := toNat_or_byte_shiftLeft (k := 24) (by decide) _ b3 (by rw [h2, h1]; omega)
  rw [le32, h3, h2, h1, h0]

/-- LE32bytes as numbers: the base-256 digits, least first. -/
theorem le32Bytes_map_toNat (v : Word) :
    (le32Bytes v).map BitVec.toNat =
      [v.toNat % 2 ^ 8, v.toNat / 2 ^ 8 % 2 ^ 8, v.toNat / 2 ^ 16 % 2 ^ 8, v.toNat / 2 ^ 24 % 2 ^ 8] := by
  simp [le32Bytes, BitVec.extractLsb'_toNat, Nat.shiftRight_eq_div_pow]

/-- LE32bytes undoes LE32. -/
theorem le32Bytes_le32 (b0 b1 b2 b3 : Byte) : le32Bytes (le32 b0 b1 b2 b3) = [b0, b1, b2, b3] := by
  apply List.map_injective_iff.mpr (fun _ _ => BitVec.eq_of_toNat_eq)
  rw [le32Bytes_map_toNat, le32_toNat]
  simp only [List.map_cons, List.map_nil, List.cons.injEq, and_true]
  omega

/-- LE32 of a counter's four bytes is the counter. -/
theorem le32_of_le32Bytes (v : Word) {b0 b1 b2 b3 : Byte} (h : le32Bytes v = [b0, b1, b2, b3]) :
    le32 b0 b1 b2 b3 = v := by
  have hdigits := h ▸ le32Bytes_map_toNat v
  simp only [List.map_cons, List.map_nil, List.cons.injEq, and_true] at hdigits
  apply BitVec.eq_of_toNat_eq
  rw [le32_toNat]
  omega

/-- Settles O33, from the two round trips and LE32's value. -/
theorem frameCounterIsLittleEndian : Obligations.FrameCounterIsLittleEndian :=
  ⟨fun b0 b1 b2 b3 => ⟨le32_toNat b0 b1 b2 b3, le32Bytes_le32 b0 b1 b2 b3⟩,
    fun v => ⟨_, _, _, _, rfl, le32_of_le32Bytes v rfl⟩⟩

/-! ## The packet as writes into a zero buffer -/

/-- The padded name fills its field (R65). -/
theorem padName_length (name : Bytes) : (padName name).length = 16 := by
  simp [padName]

/-- Writing the next field of a buffer that is zero from that field on. -/
theorem memWrite_zero_tail (pre : Bytes) (r off n : Nat) (v : Bytes) (hoff : pre.length = off) :
    memWrite (pre ++ zeros r) off n v = pre ++ v.take n ++ zeros (r - n) := by
  subst hoff
  simp [memWrite, List.drop_append, List.drop_eq_nil_of_le]

/-- Settles O43: each write extends the written prefix of the zero buffer by its field. -/
theorem packetIsItsFieldWrites : Obligations.PacketIsItsFieldWrites := by
  intro p idx h payload
  have htag : p.tag.toList.take 4 = p.tag.toList := List.take_of_length_le (by simp)
  have hname : (padName h.name).take 16 = padName h.name :=
    List.take_of_length_le (padName_length _).le
  have hcounter : (le32Bytes h.fc).take 4 = le32Bytes h.fc := rfl
  have hpayload : payload.take (min payload.length p.maxPayload) = payload.take p.maxPayload := by
    simp [List.take_eq_take_iff, Nat.min_comm]
  have hfilled (m : Nat) : 28 + m - 4 - 1 - 1 - 1 - 1 - 16 - 4 - m = 0 := by omega
  rw [← List.nil_append (zeros _)]
  iterate 8 rw [memWrite_zero_tail _ _ _ _ _ (by simp [padName_length])]
  simp [buildPacket, takePayload_eq, htag, hname, hcounter, hpayload, hfilled]

end Sys2Proof.Machine

namespace Sys2Proof.Machine

/-! ## The response of each command -/

@[simp] theorem lookupResponse_status (v : Option Word) : (lookupResponse v).status = 0 := by
  cases v <;> rfl

@[simp] theorem lookupResponse_hdr (v : Option Word) : (lookupResponse v).hdr = none := by
  cases v <;> rfl

@[simp] theorem lookupResponse_out (v : Option Word) : (lookupResponse v).out = none := by
  cases v <;> rfl

@[simp] theorem lookupResponse_diag (v : Option Word) : (lookupResponse v).diag = .none := by
  cases v <;> rfl

/-- A miss gives the value 0 (R105, R106). -/
theorem lookupResponse_value_of_invalid {v : Option Word} (h : (lookupResponse v).valid = false) :
    (lookupResponse v).value = 0 := by
  cases v with
  | none => rfl
  | some w => cases h

/-- The responses each command can give: what it names of a response (R33, R73) and the errors it can
raise (R171). -/
inductive Answer : Instr → Response → Prop where
  | lkhz (idx : BitVec 5) (v : Option Word) : Answer (.lkhz idx) (lookupResponse v)
  | lkidx (hz : Word) (v : Option Word) : Answer (.lkidx hz) (lookupResponse v)
  | invalidRate (buf : Bytes) : Answer (.decode buf) (responseOf statusInvalidSampleRate)
  | header (buf : Bytes) (h : Header) :
      Answer (.decode buf) { responseOf statusOk with hdr := some h }
  | unsupportedRate (h : Header) (payload : Bytes) :
      Answer (.encode h payload) (responseOf statusUnsupportedSampleRate)
  | packet (h : Header) (payload out : Bytes) :
      Answer (.encode h payload) { responseOf statusOk with out := some out }
  | observed (h : Header) (d : Diag) : Answer (.observe h) { responseOf statusOk with diag := d }

/-- DECODE gives its error or a Header (R120, R123). -/
theorem decodeResponse_answer (p : Config) (rom : Rom) (buf : Bytes) :
    Answer (.decode buf) (decodeResponse p rom buf) := by
  unfold decodeResponse
  split
  · exact .invalidRate buf
  · exact .header buf _

/-- ENCODE gives its error or a packet (R127, R129). -/
theorem encodeResponse_answer (p : Config) (rom : Rom) (h : Header) (payload : Bytes) :
    Answer (.encode h payload) (encodeResponse p rom h payload) := by
  unfold encodeResponse
  split
  · exact .unsupportedRate h payload
  · exact .packet h payload _

/-- An accepted OBSERVE always responds (R150, R154). -/
theorem observeCounter_answer (h : Header) (s : State) :
    ∃ r, (observeCounter h s).output = some (.response r) ∧ Answer (.observe h) r := by
  unfold observeCounter
  split
  · exact ⟨_, rfl, .observed h .none⟩
  · exact ⟨_, rfl, .observed h _⟩

/-- Every response is one its command can give. -/
theorem exec_answer {i : Instr} {s t : State} {r : Response} (he : exec i s = .next t)
    (hr : t.output = some (.response r)) : Answer i r := by
  rcases exec_cases i s with ⟨-, hsilent⟩ | ⟨ha, -⟩
  · cases hsilent.symm.trans he
    cases hr
  obtain ⟨hf, hreset⟩ := s.accepts_iff.mp ha
  cases i with
  | lkhz idx =>
    cases (exec_lkhz_ready s hf hreset idx).symm.trans he
    cases hr
    exact .lkhz idx _
  | lkidx hz =>
    cases (exec_lkidx_ready s hf hreset hz).symm.trans he
    cases hr
    exact .lkidx hz _
  | decode buf =>
    cases (exec_decode_ready s hf hreset buf).symm.trans he
    split at hr
    · cases hr
    · cases hr
      exact decodeResponse_answer s.params s.rom buf
  | encode h payload =>
    cases (exec_encode_ready s hf hreset h payload).symm.trans he
    cases hr
    exact encodeResponse_answer s.params s.rom h payload
  | observe h =>
    cases (exec_observe_ready s hf hreset h).symm.trans he
    obtain ⟨r', hr', hanswer⟩ := observeCounter_answer h s
    cases hr'.symm.trans hr
    exact hanswer

/-- A response's status is one of the three codes of R171. -/
theorem Answer.status_le {i : Instr} {r : Response} (h : Answer i r) : r.status.toNat ≤ 2 := by
  cases h with
  | lkhz | lkidx => simp
  | invalidRate | unsupportedRate => decide
  | header | packet | observed => simp [statusOk]

/-- Settles O58, from the responses each command can give. -/
theorem onlyNamedResponseFields : Obligations.OnlyNamedResponseFields := by
  intro i s t r he hr
  cases exec_answer he hr with
  | lkhz idx v => simpa using lookupResponse_value_of_invalid
  | lkidx hz v => simpa using lookupResponse_value_of_invalid
  | invalidRate | unsupportedRate => simp
  | header | packet | observed => simp [statusOk]

/-! ## Frames -/

/-- Settles O55: of the effects of an accepted command only OBSERVE's touches the table, and the fault
of a short DECODE is the one that touches the mark. -/
theorem codecCommandsLeaveTheState : Obligations.CodecCommandsLeaveTheState := by
  intro i s t hobs he
  rcases exec_cases i s with ⟨-, hsilent⟩ | ⟨-, u, hu, heffect⟩
  · cases hsilent.symm.trans he
    exact ⟨rfl, .inl rfl⟩
  · cases hu.symm.trans he
    cases heffect with
    | responds r => exact ⟨rfl, .inl rfl⟩
    | truncated buf hi hlen => exact ⟨rfl, .inr ⟨rfl, buf, hi, hlen⟩⟩
    | tracks h hi hc r => exact absurd hi (hobs h)

/-- Settles O56: OBSERVE's one write to the table is at its own key. -/
theorem observeLeavesAllButItsEntry : Obligations.ObserveLeavesAllButItsEntry := by
  intro h s t he
  rcases exec_cases (.observe h) s with ⟨-, hsilent⟩ | ⟨ha, u, hu, heffect⟩
  · cases hsilent.symm.trans he
    exact ⟨rfl, fun _ _ => rfl, fun _ => rfl⟩
  · cases hu.symm.trans he
    cases heffect with
    | responds r => exact ⟨rfl, fun _ _ => rfl, fun _ => rfl⟩
    | truncated buf hi hlen => cases hi
    | tracks h' hi hc r =>
      cases hi
      refine ⟨rfl, fun k hk => Trk.find_store_other s.trk _ k h.fc hk, fun hstill => ?_⟩
      exact absurd hstill (not_or.mpr ⟨hc, not_not.mpr (s.accepts_iff.mp ha)⟩)

/-- An accepted command leaves the ROM and the parameters. -/
theorem Effect.rom_params {i : Instr} {s t : State} (h : Effect i s t) :
    t.rom = s.rom ∧ t.params = s.params := by
  cases h <;> exact ⟨rfl, rfl⟩

/-- Settles O21: none of the six ways of a step writes the ROM or the parameters. -/
theorem noStepWritesRomOrParameters : Obligations.NoStepWritesRomOrParameters := by
  intro s t h
  obtain ⟨u, hu, hcase⟩ := step_cases s
  cases hu.symm.trans h
  cases hcase with
  | idle | assertReset | releaseReset | notAccepted | illegal => exact ⟨rfl, rfl⟩
  | executes c rest i t hi ha hd he heffect => exact heffect.rom_params

/-! ## The invariant of the block

Each operation that a step is made of keeps the invariant; O20 puts them together. -/

/-- Taking an input from the port keeps the invariant. -/
theorem State.Inv.withInputs {s : State} (h : s.Inv) (rest : List Input) :
    (s.withInputs rest).Inv :=
  ⟨h.rom, h.trk, h.single, h.cleared, h.recorded, h.answered⟩

/-- Giving nothing back keeps the invariant, since its last two parts are about what was given. -/
theorem State.Inv.silent {s : State} (h : s.Inv) : s.silent.Inv where
  rom := h.rom
  trk := h.trk
  single := h.single
  cleared hreset :=
    have ⟨htrk, hmark, _⟩ := h.cleared hreset
    ⟨htrk, hmark, rfl⟩
  recorded _ hout := nomatch hout
  answered _ hout := nomatch hout

/-- Asserting reset reaches the cleared block of R200. -/
theorem State.Inv.assertReset {s : State} (h : s.Inv) : s.assertReset.Inv where
  rom := h.rom
  trk := Trk.nil_wf
  single _ _ he := absurd he List.not_mem_nil
  cleared _ := ⟨rfl, rfl, rfl⟩
  recorded _ hout := nomatch hout
  answered _ hout := nomatch hout

/-- Releasing reset keeps the invariant, since it gives nothing back. -/
theorem State.Inv.releaseReset {s : State} (h : s.Inv) : s.releaseReset.Inv where
  rom := h.rom
  trk := h.trk
  single := h.single
  cleared hreset := nomatch hreset
  recorded _ hout := nomatch hout
  answered _ hout := nomatch hout

/-- Taking a fault keeps the invariant out of reset, where commands are taken (R200). -/
theorem State.Inv.takeFault {s : State} (h : s.Inv) (hreset : s.inReset = false) (f : Fault) :
    (s.takeFault f).Inv where
  rom := h.rom
  trk := h.trk
  single := h.single
  cleared hin := nomatch hreset.symm.trans hin
  recorded _ _ := rfl
  answered _ hout := nomatch hout

/-- A ready block's response with a status of R171 keeps the invariant. -/
theorem State.Inv.respond {s : State} (h : s.Inv) (hready : s.Ready) {r : Response}
    (hstatus : r.status.toNat ≤ 2) : (s.respond r).Inv where
  rom := h.rom
  trk := h.trk
  single := h.single
  cleared hin := nomatch hready.2.symm.trans hin
  recorded _ hout := nomatch hout
  answered _ hout := by cases hout; exact ⟨hready.1, hstatus⟩

/-- Out of reset, writing a non-zero counter at a key of the key function keeps the invariant. -/
theorem State.Inv.track {s : State} (h : s.Inv) (hreset : s.inReset = false) (hdr : Header)
    {c : Word} (hc : c ≠ 0) : (s.track (keyOf s.params.keyFn hdr) c).Inv where
  rom := h.rom
  trk := Trk.store_wf s.trk _ c hc h.trk
  single hconst e he := by
    rcases Trk.mem_store s.trk _ c e he with rfl | he
    · exact congrArg (keyOf · hdr) hconst
    · exact h.single hconst e he
  cleared hin := nomatch hreset.symm.trans hin
  recorded := h.recorded
  answered := h.answered

/-- An accepted command keeps the invariant. -/
theorem State.Inv.exec {s t : State} {i : Instr} (h : s.Inv) (ha : s.accepts = true)
    (he : exec i s = .next t) (heffect : Effect i s t) : t.Inv := by
  have hready := s.accepts_iff.mp ha
  cases heffect with
  | responds r => exact h.respond hready (exec_answer he rfl).status_le
  | truncated buf hi hlen => exact h.takeFault hready.2 _
  | tracks hdr hi hc r => exact (h.track hready.2 hdr hc).respond hready (exec_answer he rfl).status_le

/-- Settles O20, by the six ways of a step. -/
theorem everyStepKeepsTheInvariant : Obligations.EveryStepKeepsTheInvariant := by
  intro s t h hstep
  obtain ⟨u, hu, hcase⟩ := step_cases s
  cases hu.symm.trans hstep
  cases hcase with
  | idle hi => exact h
  | assertReset rest hi => exact (h.withInputs rest).assertReset
  | releaseReset rest hi => exact (h.withInputs rest).releaseReset
  | notAccepted c rest hi ha => exact (h.withInputs rest).silent
  | illegal c rest w hi ha hd => exact (h.withInputs rest).takeFault (s.accepts_iff.mp ha).2 _
  | executes c rest i t hi ha hd he heffect => exact (h.withInputs rest).exec ha he heffect

/-! ## Sequences of OBSERVE -/

/-- A ready block stays ready over an OBSERVE. -/
theorem observeCounter_ready {s : State} (h : s.Ready) (hdr : Header) :
    (observeCounter hdr s).Ready := by
  unfold observeCounter
  split <;> exact h

/-- What an accepted OBSERVE leaves at each key (R150, R151). -/
theorem observeCounter_find (h : Header) (s : State) (k : Nat) :
    (observeCounter h s).trk.find k =
      if h.fc ≠ 0 ∧ keyOf s.params.keyFn h = k then some h.fc else s.trk.find k := by
  unfold observeCounter
  split
  case isTrue hc => simp [hc]
  case isFalse hc =>
    by_cases hk : keyOf s.params.keyFn h = k
    · rw [if_pos ⟨hc, hk⟩, ← hk]
      exact Trk.find_store_same s.trk _ h.fc
    · rw [if_neg (fun hboth => hk hboth.2)]
      exact Trk.find_store_other s.trk _ k h.fc (Ne.symm hk)

/-- The command that presents an OBSERVE decodes to it. -/
theorem decodeCommand_observe (h : Header) :
    decodeCommand (encodeCommand (.observe h)) = .legal (.observe h) := by
  simp [decodeCommand, encodeCommand, encodeWord, rsvField, opcField, idxField]

/-- A ready block takes the OBSERVE presented to it, stays ready and writes its one entry. -/
theorem step_observe {s : State} (hready : s.Ready) {h : Header} {rest : List Input}
    (hi : s.inputs = .command (encodeCommand (.observe h)) :: rest) :
    ∃ t, step s = .next t ∧ t.Ready ∧ ∀ k, t.trk.find k =
      if h.fc ≠ 0 ∧ keyOf s.params.keyFn h = k then some h.fc else s.trk.find k := by
  have hready' : (s.withInputs rest).Ready := hready
  have hexec := exec_observe_ready _ hready'.1 hready'.2 h
  exact ⟨_, (step_legal s _ rest _ hi (decodeCommand_observe h)).trans hexec,
    observeCounter_ready hready' h, observeCounter_find h _⟩

/-- The last element of `x :: xs` that satisfies `p`, with default `o`: `x` serves as the default for
`xs` if it satisfies `p`. -/
theorem getLast?_filter_cons_or {α β : Type} (p : α → Bool) (f : α → β) (x : α) (xs : List α)
    (o : Option β) :
    (((x :: xs).filter p).getLast?.map f).or o =
      ((xs.filter p).getLast?.map f).or (if p x then some (f x) else o) := by
  cases hp : p x
  · simp [hp]
  · cases hl : (xs.filter p).getLast? <;> simp [hp, List.getLast?_cons, hl]

/-- Settles O53, by induction on the OBSERVE commands: the first one's write is what the others find. -/
theorem entryIsTheLastNonZeroCounter : Obligations.EntryIsTheLastNonZeroCounter := by
  intro hs
  induction hs with
  | nil => exact fun s rest hready hi => ⟨s, rfl, hi, hready, fun k => rfl⟩
  | cons h hs ih =>
    intro s rest hready hi
    obtain ⟨u, hstep, huready, hufind⟩ := step_observe hready hi
    obtain ⟨t, ht, htail, htready, hfind⟩ := ih u rest huready (by rw [step_inputs hstep, hi]; rfl)
    have hparams : u.params = s.params := (noStepWritesRomOrParameters s u hstep).2
    refine ⟨t, (runSteps_succ _ hstep).trans ht, htail, htready, fun k => ?_⟩
    rw [hfind k, hparams, hufind k, getLast?_filter_cons_or]
    simp only [decide_eq_true_eq]

/-! ## The enumerations -/

/-- Settles O59, by evaluating the ten constants. -/
theorem serviceTypeCodes : Obligations.ServiceTypeCodes := by
  unfold Obligations.ServiceTypeCodes
  decide

end Sys2Proof.Machine

namespace Sys2Proof

/-! ## The command decoder

What the decoder reads is said once, by `Command.Presents`: the word is the instruction's (R71) and the
channels that R72 lists for it hold its operands. The decoder answers an instruction exactly when the
command presents it (`decodeCommand_eq_legal_iff`). -/

/-- The command's word and listed channels are those of the instruction; the other channels may hold
anything. -/
inductive Command.Presents (c : Command) : Instr → Prop where
  | lkhz (idx : BitVec 5) (hword : c.word = encodeWord (.lkhz idx)) : Presents c (.lkhz idx)
  | lkidx (hword : c.word = 0x00000002) : Presents c (.lkidx c.a)
  | decode (hword : c.word = 0x00000003) : Presents c (.decode c.b)
  | encode (hword : c.word = 0x00000004) : Presents c (.encode c.h c.b)
  | observe (hword : c.word = 0x00000005) : Presents c (.observe c.h)

/-- The word of a command that presents an instruction. -/
theorem Command.Presents.word_eq {c : Command} {i : Instr} (h : c.Presents i) :
    c.word = encodeWord i := by
  cases h <;> assumption

/-- The encoder's command presents its instruction. -/
theorem encodeCommand_presents (i : Instr) : (encodeCommand i).Presents i := by
  cases i with
  | lkhz idx => exact .lkhz idx rfl
  | lkidx hz => exact .lkidx rfl
  | decode buf => exact .decode rfl
  | encode h payload => exact .encode rfl
  | observe h => exact .observe rfl

/-- A command with an instruction's word presents an instruction, with its own operands. -/
theorem exists_presents_of_word_eq {c : Command} {i : Instr} (h : c.word = encodeWord i) :
    ∃ j, c.Presents j := by
  cases i with
  | lkhz idx => exact ⟨_, .lkhz idx h⟩
  | lkidx hz => exact ⟨_, .lkidx h⟩
  | decode buf => exact ⟨_, .decode h⟩
  | encode hdr payload => exact ⟨_, .encode h⟩
  | observe hdr => exact ⟨_, .observe h⟩

/-- Two words with the same fields are the same word. -/
theorem word_eq_of_fields {w w' : Word} (hrsv : rsvField w = rsvField w')
    (hidx : idxField w = idxField w') (hopc : opcField w = opcField w') : w = w' := by
  rw [word_eq_fields w, hrsv, hidx, hopc, ← word_eq_fields]

/-- A word with LKHZ's opcode and clear reserved bits is LKHZ's word for its own index. -/
theorem eq_lkhz_word {w : Word} (hrsv : rsvField w = 0) (hopc : opcField w = 1) :
    w = encodeWord (.lkhz (idxField w)) := by
  obtain ⟨hrsv', hopc', hidx'⟩ := fields_of_lkhz_word (idxField w)
  exact word_eq_of_fields (hrsv.trans hrsv'.symm) hidx'.symm (hopc.trans hopc'.symm)

/-- The decoder answers an instruction only if the command presents it, by its branches. -/
theorem presents_of_decodeCommand {c : Command} {i : Instr} (h : decodeCommand c = .legal i) :
    c.Presents i := by
  unfold decodeCommand at h
  split_ifs at h with hrsv hlkhz hidx hlkidx hdecode hencode hobserve <;> cases h
  all_goals have hrsv := not_not.mp hrsv
  · exact .lkhz _ (eq_lkhz_word hrsv hlkhz)
  all_goals have hidx := not_not.mp hidx
  · exact .lkidx (word_eq_of_fields hrsv hidx hlkidx)
  · exact .decode (word_eq_of_fields hrsv hidx hdecode)
  · exact .encode (word_eq_of_fields hrsv hidx hencode)
  · exact .observe (word_eq_of_fields hrsv hidx hobserve)

/-- The decoder answers every instruction that the command presents. -/
theorem decodeCommand_of_presents {c : Command} {i : Instr} (h : c.Presents i) :
    decodeCommand c = .legal i := by
  cases h with
  | lkhz idx hword =>
    obtain ⟨hrsv, hopc, hidx⟩ := fields_of_lkhz_word idx
    simp [decodeCommand, hword, hrsv, hopc, hidx]
  | lkidx hword | decode hword | encode hword | observe hword =>
    simp [decodeCommand, hword, rsvField, idxField, opcField]

theorem decodeCommand_eq_legal_iff {c : Command} {i : Instr} :
    decodeCommand c = .legal i ↔ c.Presents i :=
  ⟨presents_of_decodeCommand, decodeCommand_of_presents⟩

/-- An illegal command is rejected by its own word (R74). -/
theorem decodeCommand_illegal_word {c : Command} {w : Word} (h : decodeCommand c = .illegal w) :
    w = c.word := by
  unfold decodeCommand at h
  split_ifs at h <;> cases h <;> rfl

/-- A command that presents no instruction is illegal. -/
theorem decodeCommand_eq_illegal {c : Command} (h : ∀ i, ¬ c.Presents i) :
    decodeCommand c = .illegal c.word := by
  cases hd : decodeCommand c with
  | legal i => exact absurd (presents_of_decodeCommand hd) (h i)
  | illegal w => rw [decodeCommand_illegal_word hd]

/-- Settles O4: the encoder's command presents the instruction, and the decoder answers what is
presented. -/
theorem decodeOfEncodeIsTheInstruction : Obligations.DecodeOfEncodeIsTheInstruction :=
  fun i => decodeCommand_of_presents (encodeCommand_presents i)

/-- Settles O2: each clause is a way to present an instruction, and the last shuts all of them out. -/
theorem legalWordsAreTheAssignedOnes : Obligations.LegalWordsAreTheAssignedOnes := by
  refine fun c => ⟨fun idx hword => decodeCommand_of_presents (.lkhz idx hword),
    fun hword => decodeCommand_of_presents (.lkidx hword),
    fun hword => decodeCommand_of_presents (.decode hword),
    fun hword => decodeCommand_of_presents (.encode hword),
    fun hword => decodeCommand_of_presents (.observe hword),
    fun hlkhz hlkidx hdecode hencode hobserve => decodeCommand_eq_illegal fun i hi => ?_⟩
  cases hi with
  | lkhz idx hword => exact hlkhz idx hword
  | lkidx hword => exact hlkidx hword
  | decode hword => exact hdecode hword
  | encode hword => exact hencode hword
  | observe hword => exact hobserve hword

/-- Settles O6: an instruction that one command presents fixes the word, so the other command presents
it with its own listed channels. -/
theorem unlistedChannelsAreNotRead : Obligations.UnlistedChannelsAreNotRead := by
  intro c c' hsame
  simp only [decodeCommand_eq_legal_iff]
  refine ⟨?_, ?_, ?_, ?_, ?_⟩
  · intro idx hi
    exact .lkhz idx (hsame ▸ hi.word_eq)
  · intro hz hi
    cases hi with
    | lkidx hword => exact ⟨rfl, .lkidx (hsame ▸ hword)⟩
  · intro buf hi
    cases hi with
    | decode hword => exact ⟨rfl, .decode (hsame ▸ hword)⟩
  · intro h p hi
    cases hi with
    | encode hword => exact ⟨rfl, rfl, .encode (hsame ▸ hword)⟩
  · intro h hi
    cases hi with
    | observe hword => exact ⟨rfl, .observe (hsame ▸ hword)⟩

/-! ## The opcode table -/

/-- A row whose mask covers the word accepts its pattern alone. -/
theorem OpcodeRow.accepts_of_full_mask (m : String) (p w : Word) :
    (OpcodeRow.mk m p 0xFFFFFFFF).accepts w = true ↔ w = p := by
  have hmask : w &&& 0xFFFFFFFF = w := BitVec.and_allOnes
  simp only [OpcodeRow.accepts, beq_iff_eq, hmask]

/-- LKHZ's row tests the reserved bits and the opcode. -/
theorem lkhz_row_fields {w : Word} (h : w &&& 0xFFFFE0FF = 0x00000001) :
    rsvField w = 0 ∧ opcField w = 1 := by
  have hrsv := congrArg rsvField h
  have hopc := congrArg opcField h
  rw [rsvField, BitVec.extractLsb'_and] at hrsv
  rw [opcField, BitVec.extractLsb'_and] at hopc
  exact ⟨BitVec.and_allOnes.symm.trans hrsv, BitVec.and_allOnes.symm.trans hopc⟩

/-- Each instruction's own row of the table accepts its word, since no other row does. -/
theorem exists_row_of_instr (i : Instr) :
    ∃ r ∈ opcodeTable, r.mnemonic = i.mnemonic ∧ r.accepts (encodeWord i) = true := by
  have hrows : Laws.Encoding.Statement i := by
    cases i with
    | lkhz idx => exact Laws.Encoding.lkhz idx
    | lkidx hz => exact Laws.Encoding.lkidx hz
    | decode buf => exact Laws.Encoding.decode buf
    | encode h payload => exact Laws.Encoding.encode h payload
    | observe h => exact Laws.Encoding.observe h
  have hmem := hrows ▸ List.mem_singleton_self i.mnemonic
  obtain ⟨r, hr, hname⟩ := List.mem_map.mp hmem
  obtain ⟨hrow, haccepts⟩ := List.mem_filter.mp hr
  exact ⟨r, hrow, hname, (encodeCommand_presents i).word_eq ▸ haccepts⟩

/-- The rows of the table accept the instructions' words and no others (R71). -/
theorem legalWord_iff (w : Word) : legalWord w = true ↔ ∃ i, w = encodeWord i := by
  constructor
  · intro h
    simp only [legalWord, opcodeTable, List.any_cons, List.any_nil, Bool.or_false, Bool.or_eq_true,
      OpcodeRow.accepts_of_full_mask] at h
    obtain hrow | rfl | rfl | rfl | rfl := h
    · obtain ⟨hrsv, hopc⟩ := lkhz_row_fields (eq_of_beq hrow)
      exact ⟨_, eq_lkhz_word hrsv hopc⟩
    · exact ⟨.lkidx 0, rfl⟩
    · exact ⟨.decode [], rfl⟩
    · exact ⟨.encode Header.zero [], rfl⟩
    · exact ⟨.observe Header.zero, rfl⟩
  · rintro ⟨i, rfl⟩
    obtain ⟨r, hrow, -, haccepts⟩ := exists_row_of_instr i
    exact List.any_eq_true.mpr ⟨r, hrow, haccepts⟩

/-- Settles O3: the table's words and the decoder's are the instructions' words, and the word presented
is in its instruction's row. -/
theorem decoderAgreesWithTheTable : Obligations.DecoderAgreesWithTheTable := by
  intro c
  simp only [decodeCommand_eq_legal_iff, legalWord_iff]
  refine ⟨⟨?_, ?_⟩, fun i hi => hi.word_eq ▸ exists_row_of_instr i⟩
  · rintro ⟨i, hi⟩
    exact exists_presents_of_word_eq hi
  · rintro ⟨i, hi⟩
    exact ⟨i, hi.word_eq⟩

/-- Settles O1, by evaluating the decoder on the twelve words. -/
theorem tableWordsDecode : Obligations.TableWordsDecode := by
  unfold Obligations.TableWordsDecode
  decide

end Sys2Proof

namespace Sys2Proof.Machine

/-- Settles O8, by evaluating the assembler and the encoder on the five lines. -/
theorem assemblerFormsAssemble : Obligations.AssemblerFormsAssemble := by
  unfold Obligations.AssemblerFormsAssemble
  decide

/-! ## The field codecs -/

/-- Settles O29: bits 7:5 and bits 4:0 are adjacent, and the tag's two forms are their definitions
(R63). -/
theorem byte0IsItsTwoFields : Obligations.Byte0IsItsTwoFields := by
  refine fun b => ⟨?_, rfl, rfl⟩
  have hadjacent : b.extractLsb' 5 3 ++ b.extractLsb' 0 5 = b.extractLsb' 0 8 :=
    BitVec.extractLsb'_append_extractLsb'_eq_extractLsb' rfl
  exact (hadjacent.trans BitVec.extractLsb'_eq_self).symm

/-- Settles O31: an offset is in the name's first 16 bytes or in the zeros behind them. -/
theorem padNameFillsSixteenBytes : Obligations.PadNameFillsSixteenBytes := by
  refine fun name => ⟨padName_length name, fun i hi => ?_⟩
  by_cases hname : i < name.length
  · have hin : i < (name.take nameLen).length := by simp [hi, hname]
    rw [padName, List.getElem?_append_left hin]
    simp [hi, hname]
  · have htake : name.take nameLen = name := List.take_of_length_le (by simp; omega)
    rw [padName, htake, List.getElem?_append_right (by omega), if_neg hname]
    exact List.getElem?_replicate_of_lt (by simp; omega)

/-- What TRIMNAME leaves does not end in a byte of the trim set. -/
theorem trimName_getLast?_notMem {p : Config} {raw : Bytes} {b : Byte}
    (h : (trimName p raw).getLast? = some b) : b ∉ p.trimSet := by
  obtain ⟨hne, rfl⟩ := List.mem_getLast?_eq_getLast h
  exact fun hmem => List.rdropWhile_last_not _ _ hne (decide_eq_true hmem)

/-- The bytes of this hardware's trim set (R5). -/
theorem mem_controlBytes (b : Byte) :
    b ∈ Config.controlBytes ↔ b.toNat ≤ 0x1F ∨ b.toNat = 0x7F := by
  revert b
  decide

/-- Settles O32: the run is what `rdropWhile` drops from the end. -/
theorem trimNameRemovesTheTrailingRun : Obligations.TrimNameRemovesTheTrailingRun := by
  refine ⟨fun p raw => ⟨(nameBytes p.nameHighbit raw).rtakeWhile (fun b => decide (b ∈ p.trimSet)),
    ?_, fun b hb => ?_, fun b => trimName_getLast?_notMem⟩, mem_controlBytes⟩
  · rw [← nameBytes_eq_map, trimName, List.rdropWhile_append_rtakeWhile]
  · simpa using List.mem_rtakeWhile_imp hb

end Sys2Proof.Machine

namespace Sys2Proof.Machine

/-! ## The sample-rate ROM

The two lookups are tied for any ROM by `hzToIndex_eq_some_iff` and `hzToIndex_eq_none_iff` (R103). This
hardware's contents enter through one table fact, `indexToHz_romContents` (R101). -/

/-- An index has a rate exactly when its entry in the list that the search runs over holds it. -/
theorem indexToHz_eq_some_iff {rom : Rom} {i : BitVec 5} {hz : Word} :
    indexToHz rom i = some hz ↔ ∃ v, rom.toList[i.toNat]? = some (some v) ∧ v.setWidth 32 = hz := by
  have hentry : rom.toList[i.toNat]? = some (rom[i.toNat]'i.isLt) := by simp [i.isLt]
  simp [indexToHz, hentry]

/-- `i` is the first index whose entry holds the rate: what R103's search returns. -/
def FirstMatch (rom : Rom) (hz : Word) (i : BitVec 5) : Prop :=
  indexToHz rom i = some hz ∧ ∀ j : BitVec 5, j.toNat < i.toNat → indexToHz rom j ≠ some hz

/-- There is at most one first match: of two, neither is below the other. -/
theorem FirstMatch.unique {rom : Rom} {hz : Word} {i j : BitVec 5} (hi : FirstMatch rom hz i)
    (hj : FirstMatch rom hz j) : i = j := by
  apply BitVec.eq_of_toNat_eq
  rcases Nat.lt_trichotomy i.toNat j.toNat with hlt | heq | hgt
  · exact absurd hi.1 (hj.2 i hlt)
  · exact heq
  · exact absurd hj.1 (hi.2 j hgt)

/-- What the search finds is a first match. -/
theorem firstMatch_of_hzToIndex {rom : Rom} {hz : Word} {i : BitVec 5}
    (h : hzToIndex rom hz = some i) : FirstMatch rom hz i := by
  obtain ⟨n, v, hentry, hrate, rfl, hbefore⟩ := searchRate_eq_some hz rom.toList 0 i h
  have hn : n < 32 := by simpa using (List.getElem?_eq_some_iff.mp hentry).1
  have hpos : (BitVec.ofNat 5 (0 + n)).toNat = n := by simp; omega
  refine ⟨indexToHz_eq_some_iff.mpr ⟨v, hpos.symm ▸ hentry, hrate⟩, fun j hj hjrate => ?_⟩
  obtain ⟨u, hjentry, hurate⟩ := indexToHz_eq_some_iff.mp hjrate
  exact hbefore j.toNat (hpos ▸ hj) u hjentry hurate

/-- The search misses exactly when no index has the rate. -/
theorem hzToIndex_eq_none_iff {rom : Rom} {hz : Word} :
    hzToIndex rom hz = none ↔ ∀ i : BitVec 5, indexToHz rom i ≠ some hz := by
  rw [hzToIndex, searchRate_eq_none]
  constructor
  · intro hmiss i hi
    obtain ⟨v, hentry, hrate⟩ := indexToHz_eq_some_iff.mp hi
    exact hmiss v (List.mem_of_getElem? hentry) hrate
  · intro hmiss v hmem hrate
    obtain ⟨n, hlt, hentry⟩ := List.getElem_of_mem hmem
    have hn : n < 32 := by simpa using hlt
    have hpos : (BitVec.ofNat 5 n).toNat = n := by simp; omega
    refine hmiss (BitVec.ofNat 5 n) (indexToHz_eq_some_iff.mpr ⟨v, ?_, hrate⟩)
    rw [hpos, List.getElem?_eq_getElem hlt, hentry]

/-- The search finds exactly the first match: where there is one it does not miss, and first matches
are unique. -/
theorem hzToIndex_eq_some_iff {rom : Rom} {hz : Word} {i : BitVec 5} :
    hzToIndex rom hz = some i ↔ FirstMatch rom hz i := by
  refine ⟨firstMatch_of_hzToIndex, fun hi => ?_⟩
  cases hfound : hzToIndex rom hz with
  | none => exact absurd hi.1 (hzToIndex_eq_none_iff.mp hfound i)
  | some j => rw [(firstMatch_of_hzToIndex hfound).unique hi]

/-- The table fact of R101: each index's entry is its rate in the source's list. -/
theorem indexToHz_romContents (i : BitVec 5) :
    (indexToHz romContents i).map BitVec.toNat = sampleRates[i.toNat]? := by
  revert i
  decide

theorem indexToHz_romContents_eq_some_iff {i : BitVec 5} {hz : Word} :
    indexToHz romContents i = some hz ↔ sampleRates[i.toNat]? = some hz.toNat := by
  simp [← indexToHz_romContents, BitVec.toNat_inj]

/-- The search of the ROM's contents misses a rate that is not one of the 21. -/
theorem hzToIndex_romContents_eq_none {hz : Word} (h : hz.toNat ∉ sampleRates) :
    hzToIndex romContents hz = none :=
  hzToIndex_eq_none_iff.mpr fun _ hi =>
    h (List.mem_of_getElem? (indexToHz_romContents_eq_some_iff.mp hi))

/-- The search of the ROM's contents finds the index of each of the 21 rates, which are distinct. -/
theorem hzToIndex_romContents_eq_some {hz : Word} {i : BitVec 5}
    (h : sampleRates[i.toNat]? = some hz.toNat) : hzToIndex romContents hz = some i := by
  refine hzToIndex_eq_some_iff.mpr ⟨indexToHz_romContents_eq_some_iff.mpr h, fun j hj hjrate => ?_⟩
  have hdistinct : sampleRates.Nodup := by decide
  have hlt := (List.getElem?_eq_some_iff.mp h).1
  have hsame := (indexToHz_romContents_eq_some_iff.mp hjrate).trans h.symm
  exact hj.ne ((List.getElem?_inj (hj.trans hlt) hdistinct).mp hsame)

/-- Settles O25: the search finds exactly the first match. -/
theorem rateSearchFindsTheFirstMatch : Obligations.RateSearchFindsTheFirstMatch :=
  fun _ _ => ⟨fun _ => hzToIndex_eq_some_iff, hzToIndex_eq_none_iff,
    fun hrom hmiss => hrom ▸ hzToIndex_romContents_eq_none hmiss⟩

/-- Settles O24, by evaluating the lookup at the 32 indices. -/
theorem romHoldsTheSourceRates : Obligations.RomHoldsTheSourceRates := by
  unfold Obligations.RomHoldsTheSourceRates
  decide

/-! ## LKHZ and LKIDX -/

/-- The response to a lookup that hits. -/
theorem lookupResponse_some (v : Word) : lookupResponse (some v) =
    { status := 0, valid := true, value := v, hdr := none, out := none, diag := .none } := rfl

/-- The response to a lookup that misses. -/
theorem lookupResponse_none : lookupResponse none =
    { status := 0, valid := false, value := 0, hdr := none, out := none, diag := .none } := rfl

/-- The response of LKHZ over the ROM's contents: a hit for the indices of the list, which has 21
entries, and a miss beyond its end. -/
theorem lookupResponse_indexToHz_romContents (idx : BitVec 5) :
    lookupResponse (indexToHz romContents idx) =
      { status := 0, valid := decide (idx.toNat ≤ 20),
        value := BitVec.ofNat 32 (sampleRates.getD idx.toNat 0),
        hdr := none, out := none, diag := .none } := by
  have hentry := indexToHz_romContents idx
  have hlength : sampleRates.length = 21 := rfl
  cases hrate : indexToHz romContents idx with
  | none =>
    have hmiss : sampleRates[idx.toNat]? = none := by rw [← hentry, hrate]; rfl
    have hidx : ¬ idx.toNat ≤ 20 := by have := List.getElem?_eq_none_iff.mp hmiss; omega
    simp [lookupResponse_none, hidx, hmiss]
  | some hz =>
    have hhit := indexToHz_romContents_eq_some_iff.mp hrate
    have hidx : idx.toNat ≤ 20 := by have := (List.getElem?_eq_some_iff.mp hhit).1; omega
    simp [lookupResponse_some, hidx, hhit]

/-- Settles O27: the decoder reads LKHZ from its word alone, and a ready block responds with the
lookup. -/
theorem lkhzAnswersTheRate : Obligations.LkhzAnswersTheRate := by
  refine fun idx => ⟨fun c => ⟨fun hd => (presents_of_decodeCommand hd).word_eq,
    fun hword => decodeCommand_of_presents (.lkhz idx hword)⟩, fun s hrom hready => ?_⟩
  have hresponse := hrom ▸ lookupResponse_indexToHz_romContents idx
  rw [exec_lkhz_ready s hready.1 hready.2, hresponse]
  rfl

/-- The decoder reads LKIDX from its word, and its rate from channel `A`. -/
theorem decodeCommand_eq_lkidx_iff {c : Command} {hz : Word} :
    decodeCommand c = .legal (.lkidx hz) ↔ c.word = 0x00000002 ∧ c.a = hz := by
  rw [decodeCommand_eq_legal_iff]
  constructor
  · intro h
    cases h with
    | lkidx hword => exact ⟨hword, rfl⟩
  · rintro ⟨hword, rfl⟩
    exact .lkidx hword

/-- Settles O28: a ready block responds with the search, whose 5-bit index loses nothing. -/
theorem lkidxAnswersTheIndex : Obligations.LkidxAnswersTheIndex := by
  refine fun hz => ⟨fun c => decodeCommand_eq_lkidx_iff, fun s hrom hready =>
    ⟨fun i hrate => ?_, fun hmiss => ?_⟩⟩
  · have hi : i < 21 := (List.getElem?_eq_some_iff.mp hrate).1
    have hpos : (BitVec.ofNat 5 i).toNat = i := by simp; omega
    have hvalue : (BitVec.ofNat 5 i).setWidth 32 = BitVec.ofNat 32 i := by
      apply BitVec.eq_of_toNat_eq
      rw [BitVec.toNat_setWidth, hpos, BitVec.toNat_ofNat]
    have hfound : hzToIndex s.rom hz = some (BitVec.ofNat 5 i) :=
      hrom ▸ hzToIndex_romContents_eq_some (hpos.symm ▸ hrate)
    rw [exec_lkidx_ready s hready.1 hready.2, hfound, Option.map_some, hvalue]
    rfl
  · have hmissed : hzToIndex s.rom hz = none := hrom ▸ hzToIndex_romContents_eq_none hmiss
    rw [exec_lkidx_ready s hready.1 hready.2, hmissed]
    rfl

end Sys2Proof.Machine

namespace Sys2Proof.Machine

/-! ## The header codec

DECODE and ENCODE are pinned by what `parseHeader` and `buildPacket` make of their operands, written out in
the spec's own operators (R120, R127), and by the two lookups over the ROM's contents. -/

/-- The index field, as the number bits 4:0 of byte 0 make. -/
theorem unpackSri_eq_ofNat (b : Byte) : unpackSri b = BitVec.ofNat 5 (b.toNat % 32) := by
  rw [← unpackSri_toNat, BitVec.ofNat_toNat, BitVec.setWidth_eq]

/-- The shifted form of the tag is byte 0 shifted down by the index field's width (R63). -/
theorem unpackSp_shifted (b : Byte) : unpackSp .shifted b = b >>> 5 := by
  apply BitVec.eq_of_toNat_eq
  simp only [unpackSp, BitVec.toNat_setWidth, BitVec.extractLsb'_toNat, BitVec.toNat_ushiftRight,
    Nat.shiftRight_eq_div_pow]
  omega

/-- The tag in either form of the parameter. -/
theorem unpackSp_eq (form : SpForm) (b : Byte) :
    unpackSp form b = if form = .inplace then b &&& 0xE0 else b >>> 5 := by
  cases form with
  | inplace => rfl
  | shifted => exact unpackSp_shifted b

/-- LE32 as the word of the number its bytes make. -/
theorem le32_eq_ofNat (b0 b1 b2 b3 : Byte) :
    le32 b0 b1 b2 b3 = BitVec.ofNat 32
      (b0.toNat + 2 ^ 8 * b1.toNat + 2 ^ 16 * b2.toNat + 2 ^ 24 * b3.toNat) := by
  rw [← le32_toNat, BitVec.ofNat_toNat, BitVec.setWidth_eq]

/-- An index that fits its field is packed whole, above which PACK0 puts the tag's bits 7:5 (R64). -/
theorem pack0_ofNat {i : Nat} (hi : i < 32) (sp : Byte) :
    pack0 (BitVec.ofNat 5 i) sp = BitVec.ofNat 8 i ||| (sp &&& 0xE0) := by
  have hindex : ∀ i < 32, (BitVec.ofNat 5 i).setWidth 8 &&& 0x1F = BitVec.ofNat 8 i := by decide
  rw [pack0, hindex i hi]

/-- PADNAME as the name's first 16 bytes and the zeros that are missing behind it (R65). -/
theorem padName_eq (name : Bytes) :
    padName name = name.take 16 ++ List.replicate (16 - name.length) 0 := by
  have hmissing : 16 - min 16 name.length = 16 - name.length := by omega
  simp [padName, hmissing]

/-! ### DECODE -/

/-- The decoder reads DECODE from its word, and its buffer from channel `B`. -/
theorem decodeCommand_eq_decode_iff {c : Command} {buf : Bytes} :
    decodeCommand c = .legal (.decode buf) ↔ c.word = 0x00000003 ∧ c.b = buf := by
  rw [decodeCommand_eq_legal_iff]
  constructor
  · intro h
    cases h with
    | decode hword => exact ⟨hword, rfl⟩
  · rintro ⟨hword, rfl⟩
    exact .decode hword

/-- The entries from 21 on are reserved (R101). -/
theorem indexToHz_romContents_reserved {i : BitVec 5} (h : 21 ≤ i.toNat) :
    indexToHz romContents i = none :=
  (romHoldsTheSourceRates i).trans (if_neg (by omega))

/-- The entries below 21 hold the listed rates (R101). -/
theorem indexToHz_romContents_defined {i : BitVec 5} (h : i.toNat < 21) :
    indexToHz romContents i = some (BitVec.ofNat 32 (sampleRates.getD i.toNat 0)) :=
  (romHoldsTheSourceRates i).trans (if_pos (by omega))

/-- A reserved index is DECODE's error (R123). -/
theorem decodeResponse_reserved (p : Config) {buf : Bytes} (h : 21 ≤ (buf.getD 4 0).toNat % 32) :
    decodeResponse p romContents buf = responseOf statusInvalidSampleRate := by
  have hrate : indexToHz romContents (unpackSri (byteAt buf 4)) = none :=
    indexToHz_romContents_reserved (by rwa [unpackSri_toNat])
  rw [decodeResponse, hrate]

/-- Any other index gives the Header with the rate of that index (R120). -/
theorem decodeResponse_defined (p : Config) {buf : Bytes} (h : (buf.getD 4 0).toNat % 32 < 21) :
    decodeResponse p romContents buf =
      { responseOf statusOk with
        hdr := some (parseHeader p
          (BitVec.ofNat 32 (sampleRates.getD ((buf.getD 4 0).toNat % 32) 0)) buf) } := by
  have hsri : (unpackSri (byteAt buf 4)).toNat = (buf.getD 4 0).toNat % 32 := unpackSri_toNat _
  have hrate := indexToHz_romContents_defined (hsri.trans_lt h)
  rw [decodeResponse, hrate, hsri]

/-- The parsed Header, each field by its offsets (R120). -/
theorem parseHeader_eq (p : Config) (hz : Word) (buf : Bytes) :
    parseHeader p hz buf =
      { sp := if p.spForm = .inplace then buf.getD 4 0 &&& 0xE0 else buf.getD 4 0 >>> 5
        sri := BitVec.ofNat 5 ((buf.getD 4 0).toNat % 32)
        hz := hz
        spf := buf.getD 5 0
        fb2 := buf.getD 6 0
        fb3 := buf.getD 7 0
        name := trimName p ((buf.drop 8).take 16)
        fc := BitVec.ofNat 32 ((buf.getD 24 0).toNat + 2 ^ 8 * (buf.getD 25 0).toNat +
          2 ^ 16 * (buf.getD 26 0).toNat + 2 ^ 24 * (buf.getD 27 0).toNat) } := by
  simp only [parseHeader, memRead, byteAt, unpackSp_eq, unpackSri_eq_ofNat, le32_eq_ofNat]

/-- Settles O35: past the length condition a ready block responds by the index's entry. -/
theorem decodeFollowsItsProcedure : Obligations.DecodeFollowsItsProcedure := by
  refine fun buf => ⟨fun c => decodeCommand_eq_decode_iff, fun s hrom hready hlen => ?_⟩
  rw [exec_decode_ready s hready.1 hready.2, if_neg (Nat.not_lt.mpr hlen)]
  split
  case isTrue hreserved =>
    have hresponse := hrom ▸ decodeResponse_reserved s.params hreserved
    rw [hresponse]
    rfl
  case isFalse hdefined =>
    have hresponse := hrom ▸ decodeResponse_defined s.params (Nat.not_le.mp hdefined)
    rw [hresponse, parseHeader_eq]
    rfl

/-! ### ENCODE -/

/-- The decoder reads ENCODE from its word, its Header from channel `H` and its payload from channel `B`. -/
theorem decodeCommand_eq_encode_iff {c : Command} {h : Header} {payload : Bytes} :
    decodeCommand c = .legal (.encode h payload) ↔
      c.word = 0x00000004 ∧ c.h = h ∧ c.b = payload := by
  rw [decodeCommand_eq_legal_iff]
  constructor
  · intro hp
    cases hp with
    | encode hword => exact ⟨hword, rfl, rfl⟩
  · rintro ⟨hword, rfl, rfl⟩
    exact .encode hword

/-- The response to a Header whose rate the ROM holds (R127). -/
theorem encodeResponse_of_rate {p : Config} {rom : Rom} {h : Header} {idx : BitVec 5}
    (hfound : hzToIndex rom h.hz = some idx) (payload : Bytes) :
    encodeResponse p rom h payload =
      { responseOf statusOk with out := some (buildPacket p idx h payload) } := by
  rw [encodeResponse, hfound]

/-- The response to a Header with any other rate (R129). -/
theorem encodeResponse_of_no_rate {p : Config} {rom : Rom} {h : Header}
    (hmissed : hzToIndex rom h.hz = none) (payload : Bytes) :
    encodeResponse p rom h payload = responseOf statusUnsupportedSampleRate := by
  rw [encodeResponse, hmissed]

/-- The packet of index `i`, field by field in the order of its offsets (R127). -/
theorem buildPacket_ofNat (p : Config) {i : Nat} (hi : i < 32) (h : Header) (payload : Bytes) :
    buildPacket p (BitVec.ofNat 5 i) h payload =
      p.tag.toList ++ [BitVec.ofNat 8 i ||| (h.sp &&& 0xE0), h.spf, h.fb2, h.fb3] ++
        (h.name.take 16 ++ List.replicate (16 - h.name.length) 0) ++
        [h.fc.extractLsb' 0 8, h.fc.extractLsb' 8 8, h.fc.extractLsb' 16 8, h.fc.extractLsb' 24 8] ++
        payload.take p.maxPayload := by
  rw [buildPacket, pack0_ofNat hi, padName_eq, takePayload_eq, le32Bytes]

/-- The search of the ROM's contents finds the position of a rate in the source's list, which fits the
index field. -/
theorem hzToIndex_romContents_of_getElem? {hz : Word} {i : Nat}
    (hrate : sampleRates[i]? = some hz.toNat) :
    hzToIndex romContents hz = some (BitVec.ofNat 5 i) := by
  have hi : i < 21 := (List.getElem?_eq_some_iff.mp hrate).1
  have hpos : (BitVec.ofNat 5 i).toNat = i := Nat.mod_eq_of_lt (by omega)
  exact hzToIndex_romContents_eq_some (hpos.symm ▸ hrate)

/-- Settles O39: a ready block responds by the search for the Header's rate. -/
theorem encodeFollowsItsProcedure : Obligations.EncodeFollowsItsProcedure := by
  refine fun h payload => ⟨fun c => decodeCommand_eq_encode_iff, fun s hrom hready =>
    ⟨fun i hrate => ?_, fun hmiss => ?_⟩⟩
  · have hi : i < 21 := (List.getElem?_eq_some_iff.mp hrate).1
    have hfound : hzToIndex s.rom h.hz = some (BitVec.ofNat 5 i) :=
      hrom ▸ hzToIndex_romContents_of_getElem? hrate
    rw [exec_encode_ready s hready.1 hready.2, encodeResponse_of_rate hfound,
      buildPacket_ofNat _ (by omega)]
    rfl
  · have hmissed : hzToIndex s.rom h.hz = none := hrom ▸ hzToIndex_romContents_eq_none hmiss
    rw [exec_encode_ready s hready.1 hready.2, encodeResponse_of_no_rate hmissed]
    rfl

/-- ENCODE on any block: the gate lets the response through. -/
theorem exec_encode_eq_gate (h : Header) (payload : Bytes) (s : State) :
    exec (.encode h payload) s =
      .next (s.gate (·.respond (encodeResponse s.params s.rom h payload))) := rfl

/-- The packet holds the payload's first `P_MAX_PAYLOAD` bytes alone, so cutting the payload there
first changes nothing. -/
theorem buildPacket_take_payload (p : Config) (idx : BitVec 5) (h : Header) (payload : Bytes) :
    buildPacket p idx h (payload.take p.maxPayload) = buildPacket p idx h payload := by
  simp only [buildPacket, takePayload_eq, List.take_take, Nat.min_self]

/-- ENCODE's response to the cut payload is its response to the whole one (R131). -/
theorem encodeResponse_take_payload (p : Config) (rom : Rom) (h : Header) (payload : Bytes) :
    encodeResponse p rom h (payload.take p.maxPayload) = encodeResponse p rom h payload := by
  cases hfound : hzToIndex rom h.hz with
  | none => rw [encodeResponse_of_no_rate hfound, encodeResponse_of_no_rate hfound]
  | some idx =>
    rw [encodeResponse_of_rate hfound, encodeResponse_of_rate hfound, buildPacket_take_payload]

/-- An output of ENCODE is the packet of its Header and payload, for the index the search found. -/
theorem exec_encode_out {h : Header} {payload out : Bytes} {s t : State} {r : Response}
    (he : exec (.encode h payload) s = .next t) (hr : t.output = some (.response r))
    (hout : r.out = some out) :
    ∃ idx, hzToIndex s.rom h.hz = some idx ∧ out = buildPacket s.params idx h payload := by
  rw [exec_encode_eq_gate] at he
  cases he
  obtain ⟨-, -, hopen⟩ | ⟨-, hclosed⟩ :=
    s.gate_cases (·.respond (encodeResponse s.params s.rom h payload))
  · rw [hopen] at hr
    cases hr
    cases hfound : hzToIndex s.rom h.hz with
    | none =>
      rw [encodeResponse_of_no_rate hfound] at hout
      cases hout
    | some idx =>
      rw [encodeResponse_of_rate hfound] at hout
      cases hout
      exact ⟨idx, rfl, rfl⟩
  · rw [hclosed] at hr
    cases hr

/-- What a packet holds from offset 28 on (R131). -/
theorem buildPacket_drop (p : Config) (idx : BitVec 5) (h : Header) (payload : Bytes) :
    (buildPacket p idx h payload).drop 28 = payload.take p.maxPayload := by
  rw [buildPacket, takePayload_eq, List.drop_left' (by simp [padName_length])]

/-- A packet's length (R44). -/
theorem buildPacket_length (p : Config) (idx : BitVec 5) (h : Header) (payload : Bytes) :
    (buildPacket p idx h payload).length = 28 + min payload.length p.maxPayload := by
  simp only [buildPacket, takePayload_eq, List.length_append, padName_length, le32Bytes_length,
    List.length_take, Vector.length_toList, List.length_cons, List.length_nil]
  omega

/-- Settles O42: the packet depends on the cut payload alone, and ends with it. -/
theorem payloadIsTruncated : Obligations.PayloadIsTruncated := by
  refine fun h payload s => ⟨?_, fun t r out he hr hout => ?_⟩
  · rw [exec_encode_eq_gate, exec_encode_eq_gate, encodeResponse_take_payload]
  · obtain ⟨idx, -, rfl⟩ := exec_encode_out he hr hout
    refine ⟨?_, fun hlimit => ?_⟩
    · rw [buildPacket_drop, List.take_eq_take_iff]
      omega
    · rw [buildPacket_length, hlimit, Nat.min_zero]

/-- ENCODE's response does not depend on the Header's index field (R130). -/
theorem encodeResponse_sri (p : Config) (rom : Rom) (h : Header) (sri : BitVec 5) (payload : Bytes) :
    encodeResponse p rom { h with sri := sri } payload = encodeResponse p rom h payload := rfl

/-- Settles O41: the response does not depend on the field. -/
theorem encodeIgnoresTheIndex : Obligations.EncodeIgnoresTheIndex := by
  intro h payload sri s
  rw [exec_encode_eq_gate, exec_encode_eq_gate, encodeResponse_sri]

end Sys2Proof.Machine

namespace Sys2Proof.Machine

/-! ## The sequence validator

OBSERVE on a ready block is `observeCounter`; each statement below follows from what that answers on each
side of R151's early return and from the event of R150 against an entry. -/

/-- The decoder reads OBSERVE from its word, and its Header from channel `H`. -/
theorem decodeCommand_eq_observe_iff {c : Command} {h : Header} :
    decodeCommand c = .legal (.observe h) ↔ c.word = 0x00000005 ∧ c.h = h := by
  rw [decodeCommand_eq_legal_iff]
  constructor
  · intro hp
    cases hp with
    | observe hword => exact ⟨hword, rfl⟩
  · rintro ⟨hword, rfl⟩
    exact .observe hword

/-- The early return (R151). -/
theorem observeCounter_of_zero {h : Header} (hc : h.fc = 0) (s : State) :
    observeCounter h s = s.respond (responseOf statusOk) := if_pos hc

/-- The event and the entry's write (R150). -/
theorem observeCounter_of_ne_zero {h : Header} (hc : h.fc ≠ 0) (s : State) :
    observeCounter h s = (s.track (keyOf s.params.keyFn h) h.fc).respond
      { responseOf statusOk with diag := diagOf (s.trk.find (keyOf s.params.keyFn h)) h.fc } :=
  if_neg hc

@[simp] theorem observeCounter_params (h : Header) (s : State) :
    (observeCounter h s).params = s.params := by
  unfold observeCounter
  split <;> rfl

/-- The event against an entry, its unsigned test in numbers (R152). -/
theorem diagOf_some (p c : Word) :
    diagOf (some p) c = if c.toNat < p.toNat then .anomaly p c else .info (c - p) := rfl

/-- The response to a non-zero counter whose key has an entry (R150, R152). -/
theorem observeCounter_output_of_find {h : Header} (hc : h.fc ≠ 0) {s : State} {p : Word}
    (hfind : s.trk.find (keyOf s.params.keyFn h) = some p) :
    (observeCounter h s).output = some (.response { responseOf statusOk with
      diag := if h.fc.toNat < p.toNat then .anomaly p h.fc else .info (h.fc - p) }) := by
  rw [observeCounter_of_ne_zero hc, State.respond_output, hfind, diagOf_some]

/-- Settles O46: the decoder's iff, and the two sides of the early return; the table written is the
store of the counter at the key. -/
theorem observeFollowsItsProcedure : Obligations.ObserveFollowsItsProcedure := by
  refine fun h => ⟨fun c => decodeCommand_eq_observe_iff, fun s hready =>
    ⟨fun hc => ?_, fun hc => ⟨s.trk.store (keyOf s.params.keyFn h) h.fc, ?_, ?_, ?_, ?_⟩⟩⟩
  · rw [exec_observe_ready s hready.1 hready.2, observeCounter_of_zero hc]
    rfl
  · rw [exec_observe_ready s hready.1 hready.2, observeCounter_of_ne_zero hc]
    cases s.trk.find (keyOf s.params.keyFn h) with
    | none => rfl
    | some p =>
      rw [diagOf_some]
      rfl
  · exact Trk.find_store_same s.trk _ h.fc
  · exact fun k hk => Trk.find_store_other s.trk _ k h.fc hk
  · exact Trk.store_wf s.trk _ h.fc hc

/-- Settles O47: past the test `p ≤ c` the subtraction is the one of the numbers, and `p` is not 0. -/
theorem gapNeverWraps : Obligations.GapNeverWraps := by
  intro h s p hready hfind hp hc
  refine ⟨_, _, exec_observe_ready s hready.1 hready.2 h, observeCounter_output_of_find hc hfind,
    fun hlt => if_pos hlt, fun hle => ⟨h.fc - p, if_neg (Nat.not_lt.mpr hle), ?_⟩⟩
  have hgap : (h.fc - p).toNat = h.fc.toNat - p.toNat := BitVec.toNat_sub_of_le hle
  have hpos : p.toNat ≠ 0 := fun h0 => hp (BitVec.eq_of_toNat_eq h0)
  have hmax := h.fc.isLt
  refine ⟨by omega, by omega, fun heq => ?_⟩
  rw [heq]
  exact BitVec.sub_self p

/-- A command that ignores the table gives the same on either table through the gate, which does not
read it. -/
theorem State.gate_with_trk {s : State} {trk' : Trk} {run : State → State}
    (hrun : run { s with trk := trk' } = { run s with trk := trk' }) :
    State.gate { s with trk := trk' } run = { s.gate run with trk := trk' } := by
  rcases s.gate_cases run with ⟨hf, hr, hopen⟩ | ⟨hclosed, hsilent⟩
  · rw [hopen]
    exact (State.gate_open { s with trk := trk' } run hf hr).trans hrun
  · rw [hsilent]
    exact State.gate_closed { s with trk := trk' } run hclosed

/-- No command but OBSERVE reads the table (R154). -/
theorem exec_with_trk {i : Instr} (hobs : ∀ h, i ≠ .observe h) (s : State) (trk' : Trk) :
    ∃ t, exec i s = .next t ∧ exec i { s with trk := trk' } = .next { t with trk := trk' } := by
  cases i with
  | lkhz | lkidx | encode => exact ⟨_, rfl, congrArg Host.Outcome.next (State.gate_with_trk rfl)⟩
  | decode buf =>
    refine ⟨_, rfl, congrArg Host.Outcome.next (State.gate_with_trk ?_)⟩
    by_cases hlen : buf.length < hdrLen
    · rw [if_pos hlen, if_pos hlen]
      rfl
    · rw [if_neg hlen, if_neg hlen]
      rfl
  | observe h => exact absurd rfl (hobs h)

/-- Settles O49: an accepted OBSERVE always responds, and the other commands neither read the table nor
write it. -/
theorem observeNeverFailsOrDisturbs : Obligations.ObserveNeverFailsOrDisturbs := by
  refine ⟨fun h s hready => ?_, fun i s trk' hobs => ?_⟩
  · obtain ⟨r, hr, hanswer⟩ := observeCounter_answer h s
    refine ⟨_, r, exec_observe_ready s hready.1 hready.2 h, hr, ?_, (observeCounter_ready hready h).1⟩
    cases hanswer
    rfl
  · obtain ⟨t, ht, ht'⟩ := exec_with_trk hobs s trk'
    have hframe := (codecCommandsLeaveTheState i s t hobs ht).1
    exact ⟨t, ht, (congrArg State.trk hframe :), ht'⟩

/-- Settles O50: the entry that the first OBSERVE wrote is the one the second is compared with, since
both have the key `K0`. -/
theorem singleKeyIsSharedByAllStreams : Obligations.SingleKeyIsSharedByAllStreams := by
  intro h h' s hready hconst hc hc'
  have hready' := observeCounter_ready hready h
  have hkey : keyOf s.params.keyFn h = keyOf s.params.keyFn h' := by rw [hconst]; rfl
  have hfind : (observeCounter h s).trk.find (keyOf (observeCounter h s).params.keyFn h') =
      some h.fc := by
    rw [observeCounter_params, observeCounter_find, if_pos ⟨hc, hkey⟩]
  exact ⟨_, _, _, exec_observe_ready s hready.1 hready.2 h,
    exec_observe_ready _ hready'.1 hready'.2 h', observeCounter_output_of_find hc' hfind, rfl⟩

end Sys2Proof.Machine

namespace Sys2Proof.Machine

/-! ## The status codes -/

/-- Settles O57, from the responses each command can give. -/
theorem statusCodesByCommand : Obligations.StatusCodesByCommand := by
  intro i s t r he hr
  cases exec_answer he hr with
  | lkhz idx v => exact .inl (lookupResponse_status v)
  | lkidx hz v => exact .inl (lookupResponse_status v)
  | header | packet | observed => exact .inl rfl
  | invalidRate buf => exact .inr (.inl ⟨rfl, buf, rfl⟩)
  | unsupportedRate h payload => exact .inr (.inr ⟨rfl, h, payload, rfl⟩)

/-! ## Dutiful callers

A fault needs an illegal word or a short DECODE, and the caller's duty of R182 rules out both; a step
only takes inputs away, so what is still presented stays dutiful. -/

/-- The block holds no fault, and everything still presented to it keeps the caller's duty (R182). -/
structure State.Dutiful (s : State) : Prop where
  unfaulted : s.faulted = false
  inputs : ∀ x ∈ s.inputs, dutifulInput x = true

/-- A dutiful command has a legal word, and at least 28 bytes if it is DECODE (R182, R207). -/
theorem legal_of_dutifulInput {c : Command} (h : dutifulInput (.command c) = true) :
    ∃ i, decodeCommand c = .legal i ∧ ∀ buf, i = .decode buf → hdrLen ≤ buf.length := by
  cases hc : decodeCommand c with
  | illegal w => simp [dutifulInput, dutifulCommand, hc] at h
  | legal i =>
    refine ⟨i, rfl, ?_⟩
    rintro buf rfl
    simpa [dutifulInput, dutifulCommand, hc] using h

/-- Of the effects of an accepted command only the fault of a short DECODE sets the mark. -/
theorem Effect.faulted_eq {i : Instr} {s t : State} (h : Effect i s t)
    (hlen : ∀ buf, i = .decode buf → hdrLen ≤ buf.length) : t.faulted = s.faulted := by
  cases h with
  | responds r => rfl
  | truncated buf hi hshort => exact absurd (hlen buf hi) (Nat.not_le.mpr hshort)
  | tracks h hi hc r => rfl

/-- No way of a step over dutiful inputs sets the mark. -/
theorem StepCase.unfaulted {s t : State} (h : StepCase s t) (hs : s.Dutiful) :
    t.faulted = false := by
  cases h with
  | idle | releaseReset | notAccepted => exact hs.unfaulted
  | assertReset => rfl
  | illegal c rest w hi ha hd =>
    obtain ⟨i, hlegal, -⟩ := legal_of_dutifulInput (hs.inputs (.command c) (by simp [hi]))
    cases hlegal.symm.trans hd
  | executes c rest i t hi ha hd he heffect =>
    obtain ⟨j, hlegal, hlen⟩ := legal_of_dutifulInput (hs.inputs (.command c) (by simp [hi]))
    cases hlegal.symm.trans hd
    exact (heffect.faulted_eq hlen).trans hs.unfaulted

/-- The step lemma behind O22. -/
theorem step_keeps_dutiful {s : State} (hs : s.Dutiful) : ∃ t, step s = .next t ∧ t.Dutiful := by
  obtain ⟨t, ht, hcase⟩ := step_cases s
  refine ⟨t, ht, hcase.unfaulted hs, fun x hx => hs.inputs x ?_⟩
  rw [step_inputs ht] at hx
  exact List.mem_of_mem_tail hx

/-- A run over dutiful inputs goes on and stays dutiful. -/
theorem runSteps_keeps_dutiful (n : Nat) :
    ∀ {s : State}, s.Dutiful → ∃ t, runSteps n s = .next t ∧ t.Dutiful := by
  induction n with
  | zero => exact fun hs => ⟨_, rfl, hs⟩
  | succ n ih =>
    intro s hs
    obtain ⟨u, hstep, hu⟩ := step_keeps_dutiful hs
    obtain ⟨t, hrun, ht⟩ := ih hu
    exact ⟨t, (runSteps_succ n hstep).trans hrun, ht⟩

/-- Settles O22, by the invariant `State.Dutiful`, which every step keeps. -/
theorem dutifulCallersNeverFault : Obligations.DutifulCallersNeverFault := by
  intro n s hmark hduty
  obtain ⟨t, hrun, ht⟩ := runSteps_keeps_dutiful n ⟨hmark, hduty⟩
  exact ⟨t, hrun, ht.unfaulted⟩

end Sys2Proof.Machine

namespace Sys2Proof.Machine

/-! ## Blocks that take no command

A faulted block and a block in reset treat a presented command alike: it leaves the port and nothing else
happens (R174, R200). -/

/-- What a step answers is one of its six ways. -/
theorem stepCase_of_step {s t : State} (h : step s = .next t) : StepCase s t := by
  obtain ⟨u, hu, hcase⟩ := step_cases s
  cases hu.symm.trans h
  exact hcase

theorem State.accepts_eq_false_iff (s : State) :
    s.accepts = false ↔ s.faulted = true ∨ s.inReset = true := by
  cases hf : s.faulted <;> cases hr : s.inReset <;> simp [State.accepts, hf, hr]

/-- An instruction on a block that takes no command. -/
theorem exec_of_not_accepts {s : State} (h : s.accepts = false) (i : Instr) :
    exec i s = .next s.silent := by
  obtain ⟨-, he⟩ | ⟨ha, -⟩ := exec_cases i s
  · exact he
  · cases h.symm.trans ha

/-- A block that takes no command drops what is presented, legal or not (log entry 6). -/
theorem step_of_not_accepts {s : State} (h : s.accepts = false) {c : Command} {rest : List Input}
    (hi : s.inputs = .command c :: rest) : step s = .next (s.withInputs rest).silent := by
  have h' : (s.withInputs rest).accepts = false := h
  cases hd : decodeCommand c with
  | legal i => rw [step_legal s c rest i hi hd, exec_of_not_accepts h']
  | illegal w =>
    rw [step_illegal s c rest w hi hd, State.illegalCommand,
      State.gate_closed _ _ ((State.accepts_eq_false_iff _).mp h')]

/-- Settles O13: a faulted block takes no command. -/
theorem faultedBlockTakesNoCommand : Obligations.FaultedBlockTakesNoCommand := by
  intro s hmark
  have hclosed := s.accepts_eq_false_iff.mpr (.inl hmark)
  exact ⟨exec_of_not_accepts hclosed, fun c rest hi => step_of_not_accepts hclosed hi⟩

/-- One step of a quiescent block whose next input is not a change of reset. -/
theorem step_quiescent {s : State} (hs : s.Quiescent)
    (hreset : ∀ x ∈ s.inputs, ∀ level, x ≠ .reset level) :
    ∃ t, step s = .next t ∧ t.Quiescent ∧ t.trk = s.trk ∧ t.rom = s.rom := by
  cases hi : s.inputs with
  | nil => exact ⟨s, step_nil s hi, hs, rfl, rfl⟩
  | cons x rest =>
    cases x with
    | reset level => exact absurd rfl (hreset (.reset level) (by simp [hi]) level)
    | command c =>
      exact ⟨_, step_of_not_accepts (s.accepts_eq_false_iff.mpr (.inl hs.1)) hi, hs, rfl, rfl⟩

/-- Without a change of reset a quiescent block stays quiescent over a run, which only takes the inputs
away. -/
theorem runSteps_quiescent (n : Nat) : ∀ {s : State}, s.Quiescent →
    (∀ x ∈ s.inputs, ∀ level, x ≠ .reset level) →
      ∃ t, runSteps n s = .next t ∧ t.Quiescent ∧ t.trk = s.trk ∧ t.rom = s.rom ∧
        t.inputs = s.inputs.drop n := by
  induction n with
  | zero => exact fun hs _ => ⟨_, rfl, hs, rfl, rfl, rfl⟩
  | succ n ih =>
    intro s hs hreset
    obtain ⟨u, hstep, hu, hutrk, hurom⟩ := step_quiescent hs hreset
    have htail := step_inputs hstep
    obtain ⟨t, hrun, ht, htrk, hrom, hinputs⟩ :=
      ih hu fun x hx => hreset x (List.mem_of_mem_tail (htail ▸ hx))
    exact ⟨t, (runSteps_succ n hstep).trans hrun, ht, htrk.trans hutrk, hrom.trans hurom,
      by rw [hinputs, htail, List.drop_tail]⟩

/-- Settles O14, by induction on the number of steps; a quiescent block holds a fault, which a final one
does not. -/
theorem quiescentUntilReset : Obligations.QuiescentUntilReset := by
  intro n s hs hreset
  obtain ⟨t, hrun, ht, htrk, hrom, hinputs⟩ := runSteps_quiescent n hs hreset
  exact ⟨t, hrun, ht, fun hfinal => Bool.noConfusion (ht.1.symm.trans hfinal.2.1), htrk, hrom, hinputs⟩

/-! ## Reset and the fault mark -/

/-- Settles O15: the two levels of the reset input, and the closed gate between them. -/
theorem resetEmptiesTheTable : Obligations.ResetEmptiesTheTable := by
  intro s rest
  refine ⟨fun hi => ⟨_, step_reset s true rest hi, ?_⟩, fun c hin hi => ?_, fun hi => ?_⟩
  · exact ⟨Trk.find_nil, rfl, rfl, rfl, rfl, rfl, rfl⟩
  · exact step_of_not_accepts (s.accepts_eq_false_iff.mpr (.inr hin)) hi
  · exact step_reset s false rest hi

/-- Settles O12: of the ways of a step over a command only an illegal word and an executed DECODE of a
short buffer give a fault. -/
theorem faultsHaveTheirCauseAndWriteTheMark : Obligations.FaultsHaveTheirCauseAndWriteTheMark := by
  intro s t c rest f hi hstep hfault
  cases stepCase_of_step hstep with
  | idle h | assertReset _ h | releaseReset _ h => cases h.symm.trans hi
  | notAccepted => cases hfault
  | illegal c' rest' w h ha hd =>
    cases h.symm.trans hi
    cases hfault
    cases decodeCommand_illegal_word hd
    exact ⟨s.accepts_iff.mp ha, rfl, .inl ⟨rfl, hd⟩⟩
  | executes c' rest' i t h ha hd he heffect =>
    cases h.symm.trans hi
    cases heffect with
    | responds r => cases hfault
    | tracks hdr hinstr hc r => cases hfault
    | truncated buf hinstr hlen =>
      cases hfault
      exact ⟨s.accepts_iff.mp ha, rfl, .inr ⟨buf, hinstr ▸ hd, hlen, rfl⟩⟩

/-- Settles O16: a step that sets the mark takes a fault, and one that clears it asserts reset. -/
theorem onlyResetClearsTheFaultMark : Obligations.OnlyResetClearsTheFaultMark := by
  intro s t hstep
  refine ⟨fun hclear hmark => ?_, fun c rest f hi hfault => ?_, fun hmark hclear => ?_⟩
  · cases stepCase_of_step hstep with
    | idle | releaseReset | notAccepted => cases hclear.symm.trans hmark
    | assertReset => cases hmark
    | illegal => exact ⟨_, rfl⟩
    | executes c rest i t hi ha hd he heffect =>
      cases heffect with
      | responds | tracks => cases hclear.symm.trans hmark
      | truncated => exact ⟨_, rfl⟩
  · obtain ⟨-, ht, -⟩ := faultsHaveTheirCauseAndWriteTheMark s t c rest f hi hstep hfault
    rw [ht]
  · cases stepCase_of_step hstep with
    | idle | releaseReset | notAccepted => cases hmark.symm.trans hclear
    | assertReset rest hi => exact ⟨rest, hi⟩
    | illegal => cases hclear
    | executes c rest i t hi ha => cases hmark.symm.trans (s.accepts_iff.mp ha).1

/-- Settles O18: a step has one of its six ways, and each answers a next state. -/
theorem everyStepCompletes : Obligations.EveryStepCompletes := by
  intro s
  obtain ⟨t, ht, -⟩ := step_cases s
  exact ⟨t, ht⟩

/-- Settles O10: the step's own law for an empty port. -/
theorem idleBlockDoesNothing : Obligations.IdleBlockDoesNothing := step_nil

/-- Settles O17: the fields of `State.reset`, and the step over its empty port. -/
theorem resetStateIsTheSpecs : Obligations.ResetStateIsTheSpecs :=
  ⟨Trk.find_nil, rfl, rfl, step_nil State.reset rfl⟩

/-- Settles O19: the table is empty, reset is released and nothing was given back. -/
theorem invariantHoldsAtReset : Obligations.InvariantHoldsAtReset where
  rom := rfl
  trk := Trk.nil_wf
  single _ _ he := absurd he List.not_mem_nil
  cleared hreset := nomatch hreset
  recorded _ hout := nomatch hout
  answered _ hout := nomatch hout

end Sys2Proof.Machine

namespace Sys2Proof

open Machine

/-! ## The verdict on a word, and the boundary before it -/

/-- Another command with the same word presents the same mnemonic, with its own operands. -/
theorem Command.Presents.of_word_eq {c c' : Command} {i : Instr} (h : c.Presents i)
    (hsame : c'.word = c.word) : ∃ i', c'.Presents i' ∧ i'.mnemonic = i.mnemonic := by
  cases h with
  | lkhz idx hword => exact ⟨_, .lkhz idx (hsame.trans hword), rfl⟩
  | lkidx hword => exact ⟨_, .lkidx (hsame.trans hword), rfl⟩
  | decode hword => exact ⟨_, .decode (hsame.trans hword), rfl⟩
  | encode hword => exact ⟨_, .encode (hsame.trans hword), rfl⟩
  | observe hword => exact ⟨_, .observe (hsame.trans hword), rfl⟩

/-- The decoder rejects exactly the words that are no instruction's. -/
theorem decodeCommand_eq_illegal_iff {c : Command} :
    decodeCommand c = .illegal c.word ↔ ∀ i, c.word ≠ encodeWord i := by
  constructor
  · intro hd i hword
    obtain ⟨j, hj⟩ := exists_presents_of_word_eq hword
    cases (decodeCommand_of_presents hj).symm.trans hd
  · exact fun h => decodeCommand_eq_illegal fun i hi => h i hi.word_eq

/-- Settles O5: the word is an instruction's, which both commands then present, or it is no
instruction's and both are illegal. -/
theorem verdictDependsOnTheWordAlone : Obligations.VerdictDependsOnTheWordAlone := by
  intro c c' hsame
  by_cases hlegal : ∃ i, c.word = encodeWord i
  · obtain ⟨_, hword⟩ := hlegal
    obtain ⟨i, hi⟩ := exists_presents_of_word_eq hword
    obtain ⟨i', hi', hname⟩ := hi.of_word_eq hsame.symm
    exact .inl ⟨i, i', decodeCommand_of_presents hi, decodeCommand_of_presents hi', hname.symm,
      hi.word_eq.symm, hi'.word_eq.symm.trans hsame.symm⟩
  · have hillegal := not_exists.mp hlegal
    refine .inr ⟨decodeCommand_eq_illegal_iff.mpr hillegal, ?_⟩
    rw [hsame] at hillegal ⊢
    exact decodeCommand_eq_illegal_iff.mpr hillegal

/-- A word whose bits above the opcode are clear is the number of its opcode. -/
theorem word_eq_of_high_bits_zero {w w' : Word} (hhigh : w.extractLsb' 8 24 = 0)
    (hopc : (w.extractLsb' 0 8).toNat = w'.toNat) : w = w' := by
  have hhigh : (w.extractLsb' 8 24).toNat = 0 := congrArg BitVec.toNat hhigh
  have hlt := w.isLt
  apply BitVec.eq_of_toNat_eq
  simp only [BitVec.extractLsb'_toNat, Nat.shiftRight_eq_div_pow] at hhigh hopc
  omega

/-- Illegality in R74's own words: no instruction has the word. -/
theorem illegalBits_iff (w : Word) : illegalBits w ↔ ∀ i, w ≠ encodeWord i := by
  constructor
  · rintro hbits i rfl
    cases i with
    | lkhz idx =>
      obtain ⟨hrsv, hopc, -⟩ := fields_of_lkhz_word idx
      have hopc : ((encodeWord (.lkhz idx)).extractLsb' 0 8).toNat = 1 := congrArg BitVec.toNat hopc
      have hrsv : (encodeWord (.lkhz idx)).extractLsb' 13 19 = 0 := hrsv
      simp [illegalBits, hopc, hrsv] at hbits
    | lkidx | decode | encode | observe => simp [illegalBits, encodeWord] at hbits
  · intro hword
    by_contra hbits
    simp only [illegalBits, not_or, not_and, not_not] at hbits
    obtain ⟨hzero, hrange, hlkhz, hother⟩ := hbits
    have hcases : (w.extractLsb' 0 8).toNat = 1 ∨ (w.extractLsb' 0 8).toNat = 2 ∨
        (w.extractLsb' 0 8).toNat = 3 ∨ (w.extractLsb' 0 8).toNat = 4 ∨
        (w.extractLsb' 0 8).toNat = 5 := by omega
    obtain hopc | hopc | hopc | hopc | hopc := hcases
    · exact hword _ (eq_lkhz_word (hlkhz hopc) (BitVec.eq_of_toNat_eq hopc))
    all_goals have hhigh := hother (by omega)
    · exact hword (.lkidx 0) (word_eq_of_high_bits_zero hhigh hopc)
    · exact hword (.decode []) (word_eq_of_high_bits_zero hhigh hopc)
    · exact hword (.encode Header.zero []) (word_eq_of_high_bits_zero hhigh hopc)
    · exact hword (.observe Header.zero) (word_eq_of_high_bits_zero hhigh hopc)

/-- A ready block takes the fault of an illegal word (R74, R174). -/
theorem step_illegal_ready {s : State} (hready : s.Ready) {c : Command} {rest : List Input}
    {w : Word} (hi : s.inputs = .command c :: rest) (hd : decodeCommand c = .illegal w) :
    step s = .next ((s.withInputs rest).takeFault (.illegalCommand w)) := by
  have hopen := (s.withInputs rest).gate_open (·.takeFault (.illegalCommand w)) hready.1 hready.2
  rw [step_illegal s c rest w hi hd, State.illegalCommand, hopen]

/-- Settles O11: R74's bits and the decoder both shut out exactly the instructions' words. -/
theorem illegalWordFaults : Obligations.IllegalWordFaults := by
  have hillegal (c : Command) : illegalBits c.word ↔ decodeCommand c = .illegal c.word :=
    (illegalBits_iff c.word).trans decodeCommand_eq_illegal_iff.symm
  exact ⟨hillegal, fun s c rest hready hi hbits =>
    step_illegal_ready hready hi ((hillegal c).mp hbits)⟩

/-- The numbers of a raw Header that fits. -/
theorem RawHeader.fits_iff (h : RawHeader) :
    h.fits = true ↔ h.sp < 2 ^ 8 ∧ h.sri < 2 ^ 5 ∧ h.hz < 2 ^ 32 ∧ h.spf < 2 ^ 8 ∧ h.fb2 < 2 ^ 8 ∧
      h.fb3 < 2 ^ 8 ∧ h.fc < 2 ^ 32 ∧ ∀ b ∈ h.name, b < 2 ^ 8 := by
  simp only [RawHeader.fits, Bool.and_eq_true, decide_eq_true_eq, List.all_eq_true, and_assoc]
  rw [and_comm (b := h.fc < 2 ^ 32)]

/-- The numbers of a raw command that fits. -/
theorem RawCommand.fits_iff (r : RawCommand) :
    r.fits = true ↔ r.word < 2 ^ 32 ∧ r.a < 2 ^ 32 ∧ r.h.fits = true ∧ ∀ b ∈ r.b, b < 2 ^ 8 := by
  simp only [RawCommand.fits, Bool.and_eq_true, decide_eq_true_eq, List.all_eq_true, and_assoc]

/-- The boundary refuses exactly the raw commands that do not fit (R170). -/
theorem RawCommand.toCommand_eq_none_iff (r : RawCommand) : r.toCommand = none ↔ ¬ r.fits = true := by
  unfold RawCommand.toCommand
  split <;> simp [*]

/-- Bytes that fit are unchanged as typed bytes. -/
theorem map_toNat_map_ofNat {l : List Nat} (h : ∀ b ∈ l, b < 2 ^ 8) :
    (l.map (BitVec.ofNat 8)).map BitVec.toNat = l := by
  rw [List.map_map]
  exact (List.map_congr_left fun b hb => Nat.mod_eq_of_lt (h b hb)).trans (List.map_id l)

/-- Settles O7: a raw command is admitted when each number is below its width's bound, which is when
typing it changes nothing. -/
theorem boundaryRefusesOutOfWidthValues : Obligations.BoundaryRefusesOutOfWidthValues := by
  refine fun r => ⟨?_, fun c hc => ?_⟩
  · rw [RawCommand.toCommand_eq_none_iff, RawCommand.fits_iff, RawHeader.fits_iff]
    simp only [not_and_or, not_forall, not_lt, exists_prop, or_assoc]
  · unfold RawCommand.toCommand at hc
    split at hc
    case isFalse => cases hc
    case isTrue hfits =>
      cases hc
      obtain ⟨hword, ha, hhdr, hb⟩ := r.fits_iff.mp hfits
      obtain ⟨hsp, hsri, hhz, hspf, hfb2, hfb3, hfc, hname⟩ := r.h.fits_iff.mp hhdr
      exact ⟨Nat.mod_eq_of_lt hword, Nat.mod_eq_of_lt ha, Nat.mod_eq_of_lt hsp,
        Nat.mod_eq_of_lt hsri, Nat.mod_eq_of_lt hhz, Nat.mod_eq_of_lt hspf, Nat.mod_eq_of_lt hfb2,
        Nat.mod_eq_of_lt hfb3, Nat.mod_eq_of_lt hfc, map_toNat_map_ofNat hname,
        map_toNat_map_ofNat hb⟩

end Sys2Proof

namespace Sys2Proof.Machine

/-! ## Byte 0

PACK0 sets two adjacent fields (R62, R64), so each way back is a fact about appending them. -/

/-- PACK0 puts bits 7:5 of the tag above the index. -/
theorem pack0_eq_append (idx : BitVec 5) (sp : Byte) : pack0 idx sp = sp.extractLsb' 5 3 ++ idx := by
  apply BitVec.eq_of_getLsbD_eq
  intro i hi
  simp only [pack0, BitVec.getLsbD_append]
  interval_cases i <;> simp

@[simp] theorem unpackSri_pack0 (idx : BitVec 5) (sp : Byte) : unpackSri (pack0 idx sp) = idx := by
  rw [pack0_eq_append, unpackSri, BitVec.extractLsb'_append_eq_right]

/-- The tag's bits come back from the packed byte as they were. -/
theorem tagBits_pack0 (idx : BitVec 5) (sp : Byte) :
    (pack0 idx sp).extractLsb' 5 3 = sp.extractLsb' 5 3 := by
  rw [pack0_eq_append, BitVec.extractLsb'_append_eq_left]

/-- The in-place form keeps bits 7:5 and clears the rest (R63). -/
theorem unpackSp_inplace_eq_append (b : Byte) :
    unpackSp .inplace b = b.extractLsb' 5 3 ++ 0#5 := by
  revert b
  decide

/-- Either form of the tag depends on bits 7:5 alone. -/
theorem unpackSp_congr {b b' : Byte} (h : b.extractLsb' 5 3 = b'.extractLsb' 5 3) (form : SpForm) :
    unpackSp form b = unpackSp form b' := by
  cases form with
  | inplace => rw [unpackSp_inplace_eq_append, unpackSp_inplace_eq_append, h]
  | shifted => rw [unpackSp, unpackSp, h]

@[simp] theorem unpackSp_pack0 (form : SpForm) (idx : BitVec 5) (sp : Byte) :
    unpackSp form (pack0 idx sp) = unpackSp form sp :=
  unpackSp_congr (tagBits_pack0 idx sp) form

/-- The shifted form as a number. -/
theorem unpackSp_shifted_toNat (b : Byte) : (unpackSp .shifted b).toNat = b.toNat / 32 := by
  rw [unpackSp_shifted, BitVec.toNat_ushiftRight, Nat.shiftRight_eq_div_pow]

/-- The in-place form loses nothing of the byte. -/
theorem pack0_unpack_inplace (b : Byte) : pack0 (unpackSri b) (unpackSp .inplace b) = b := by
  revert b
  decide

/-- The shifted form leaves bits 7:5 of the byte packed again at 0. -/
theorem pack0_unpack_shifted (b : Byte) :
    pack0 (unpackSri b) (unpackSp .shifted b) = b &&& 0x1F := by
  revert b
  decide

theorem and_0x1F_toNat (b : Byte) : (b &&& 0x1F).toNat = b.toNat % 32 := by
  rw [BitVec.toNat_and]
  exact Nat.and_two_pow_sub_one_eq_mod _ 5

/-- Settles O30, from what unpacking a packed byte and packing an unpacked one give. -/
theorem byte0PacksAndUnpacks : Obligations.Byte0PacksAndUnpacks := by
  refine ⟨fun idx sp => ⟨unpackSri_pack0 idx sp, unpackSp_pack0 .inplace idx sp, ?_⟩,
    fun b => ⟨pack0_unpack_inplace b, ?_⟩⟩
  · rw [unpackSp_pack0, unpackSp_shifted_toNat]
  · rw [pack0_unpack_shifted, and_0x1F_toNat]

/-! ## The parts of a packet -/

/-- A packet from byte 4 on: the fields of the region in the order of R61, then the payload. -/
theorem buildPacket_drop_tag (p : Config) (idx : BitVec 5) (h : Header) (payload : Bytes) :
    (buildPacket p idx h payload).drop 4 = pack0 idx h.sp :: h.spf :: h.fb2 :: h.fb3 ::
      (padName h.name ++ (le32Bytes h.fc ++ payload.take p.maxPayload)) := by
  obtain ⟨t0, t1, t2, t3, -, hpacket⟩ := buildPacket_form p idx h payload
  rw [hpacket]
  rfl

/-- A packet begins with `P_TAG`. -/
theorem buildPacket_take_tag (p : Config) (idx : BitVec 5) (h : Header) (payload : Bytes) :
    (buildPacket p idx h payload).take 4 = p.tag.toList := by
  obtain ⟨t0, t1, t2, t3, htag, hpacket⟩ := buildPacket_form p idx h payload
  rw [hpacket, htag]
  rfl

/-- A packet from the name field on. -/
theorem buildPacket_drop_name (p : Config) (idx : BitVec 5) (h : Header) (payload : Bytes) :
    (buildPacket p idx h payload).drop 8 =
      padName h.name ++ (le32Bytes h.fc ++ payload.take p.maxPayload) := by
  rw [show 8 = 4 + 4 from rfl, ← List.drop_drop, buildPacket_drop_tag]
  rfl

/-- A packet from the counter on. -/
theorem buildPacket_drop_counter (p : Config) (idx : BitVec 5) (h : Header) (payload : Bytes) :
    (buildPacket p idx h payload).drop 24 = le32Bytes h.fc ++ payload.take p.maxPayload := by
  rw [show 24 = 8 + 16 from rfl, ← List.drop_drop, buildPacket_drop_name,
    List.drop_left' (padName_length _)]

/-- The name field of a packet. -/
theorem buildPacket_name (p : Config) (idx : BitVec 5) (h : Header) (payload : Bytes) :
    ((buildPacket p idx h payload).drop 8).take 16 = padName h.name := by
  rw [buildPacket_drop_name, List.take_left' (padName_length _)]

/-- The counter's field of a packet. -/
theorem buildPacket_counter (p : Config) (idx : BitVec 5) (h : Header) (payload : Bytes) :
    ((buildPacket p idx h payload).drop 24).take 4 = le32Bytes h.fc := by
  rw [buildPacket_drop_counter, List.take_left' (le32Bytes_length _)]

/-- The bytes of a packet at the offsets of its four single-byte fields. -/
theorem buildPacket_getElem? (p : Config) (idx : BitVec 5) (h : Header) (payload : Bytes) :
    (buildPacket p idx h payload)[4]? = some (pack0 idx h.sp) ∧
      (buildPacket p idx h payload)[5]? = some h.spf ∧
      (buildPacket p idx h payload)[6]? = some h.fb2 ∧
      (buildPacket p idx h payload)[7]? = some h.fb3 := by
  have hbyte (k : Nat) := (List.getElem?_drop (xs := buildPacket p idx h payload) (i := 4) (j := k)).symm
  simp only [buildPacket_drop_tag] at hbyte
  exact ⟨hbyte 0, hbyte 1, hbyte 2, hbyte 3⟩

/-- An index that the search finds in the ROM's contents is a defined one. -/
theorem hzToIndex_romContents_lt {hz : Word} {i : BitVec 5} (h : hzToIndex romContents hz = some i) :
    i.toNat < 21 :=
  (List.getElem?_eq_some_iff.mp
    (indexToHz_romContents_eq_some_iff.mp (firstMatch_of_hzToIndex h).1)).1

/-- Settles O40: each part of the packet is at its offset, and byte 4 is the packed byte. -/
theorem encodeOutputShape : Obligations.EncodeOutputShape := by
  intro h payload out s t r hrom he hr hout
  obtain ⟨idx, hfound, rfl⟩ := exec_encode_out he hr hout
  obtain ⟨hbyte, -, -, -⟩ := buildPacket_getElem? s.params idx h payload
  have hindex := hzToIndex_romContents_lt (hrom ▸ hfound)
  refine ⟨buildPacket_length _ _ _ _, buildPacket_take_tag _ _ _ _, ⟨_, hbyte, ?_, ?_⟩,
    buildPacket_name _ _ _ _, buildPacket_counter _ _ _ _, buildPacket_drop _ _ _ _⟩
  · rw [← unpackSri_toNat, unpackSri_pack0]
    omega
  · rw [← unpackSp_shifted_toNat, unpackSp_pack0, unpackSp_shifted_toNat]

/-! ## The two lookups over the ROM's contents -/

/-- The search finds the index of a rate that the ROM's contents hold there. -/
theorem hzToIndex_of_indexToHz {hz : Word} {i : BitVec 5} (h : indexToHz romContents i = some hz) :
    hzToIndex romContents hz = some i :=
  hzToIndex_romContents_eq_some (indexToHz_romContents_eq_some_iff.mp h)

/-- Settles O26: the search finds the index that a rate was read at, so no two indices have the same
rate, and what it finds holds the rate. -/
theorem romLookupsAreInverse : Obligations.RomLookupsAreInverse := by
  have hread {i : BitVec 5} (hi : i.toNat ≤ 20) : ∃ hz, indexToHz romContents i = some hz :=
    ⟨_, indexToHz_romContents_defined (Nat.lt_succ_of_le hi)⟩
  refine ⟨fun i j hi _ hsame => ?_, fun i hi => ?_, fun hz j h => (firstMatch_of_hzToIndex h).1⟩
  · obtain ⟨hz, hrate⟩ := hread hi
    have hfound := hzToIndex_of_indexToHz hrate
    exact Option.some.inj (hfound.symm.trans (hzToIndex_of_indexToHz (hsame ▸ hrate)))
  · obtain ⟨hz, hrate⟩ := hread hi
    exact ⟨hz, hrate, hzToIndex_of_indexToHz hrate⟩

end Sys2Proof.Machine

namespace Sys2Proof.Machine

/-! ## What DECODE reads -/

/-- Settles O34: the length condition comes before every read (R121). -/
theorem shortBufferFaults : Obligations.ShortBufferFaults := by
  intro buf s hready hlen
  rw [exec_decode_ready s hready.1 hready.2, if_pos hlen]
  rfl

/-- DECODE of at least 28 bytes on any block: the gate lets the response through. -/
theorem exec_decode_eq_gate {buf : Bytes} (hlen : 28 ≤ buf.length) (s : State) :
    exec (.decode buf) s = .next (s.gate (fun s => s.respond (decodeResponse s.params s.rom buf))) := by
  simp only [exec, execDecode, hdrLen_eq, if_neg (Nat.not_lt.mpr hlen)]

/-- DECODE of at least 28 bytes on a ready block. -/
theorem exec_decode_of_length {buf : Bytes} (hlen : 28 ≤ buf.length) {s : State} (hready : s.Ready) :
    exec (.decode buf) s = .next (s.respond (decodeResponse s.params s.rom buf)) := by
  rw [exec_decode_ready s hready.1 hready.2, if_neg (Nat.not_lt.mpr hlen)]

/-- The response to an index without a rate (R123). -/
theorem decodeResponse_of_no_rate {rom : Rom} {buf : Bytes}
    (hmissed : indexToHz rom (unpackSri (byteAt buf 4)) = none) (p : Config) :
    decodeResponse p rom buf = responseOf statusInvalidSampleRate := by
  rw [decodeResponse, hmissed]

/-- The response to an index with a rate (R120). -/
theorem decodeResponse_of_rate {rom : Rom} {buf : Bytes} {hz : Word}
    (hfound : indexToHz rom (unpackSri (byteAt buf 4)) = some hz) (p : Config) :
    decodeResponse p rom buf = { responseOf statusOk with hdr := some (parseHeader p hz buf) } := by
  rw [decodeResponse, hfound]

/-- A Header that DECODE returns is the one parsed with the rate of byte 4's index, on a ready block. -/
theorem exec_decode_hdr {buf : Bytes} {s t : State} {r : Response} {h : Header}
    (he : exec (.decode buf) s = .next t) (hr : t.output = some (.response r))
    (hhdr : r.hdr = some h) :
    t = s.respond r ∧ ∃ hz, indexToHz s.rom (unpackSri (byteAt buf 4)) = some hz ∧
      h = parseHeader s.params hz buf := by
  obtain ⟨-, hsilent⟩ | ⟨ha, -⟩ := exec_cases (.decode buf) s
  · cases hsilent.symm.trans he
    cases hr
  obtain ⟨hf, hreset⟩ := s.accepts_iff.mp ha
  cases (exec_decode_ready s hf hreset buf).symm.trans he
  split at hr
  case isTrue => cases hr
  case isFalse hlen =>
    cases hr
    refine ⟨if_neg hlen, ?_⟩
    cases hrate : indexToHz s.rom (unpackSri (byteAt buf 4)) with
    | none =>
      rw [decodeResponse_of_no_rate hrate] at hhdr
      cases hhdr
    | some hz =>
      rw [decodeResponse_of_rate hrate] at hhdr
      exact ⟨hz, rfl, (Option.some.inj hhdr).symm⟩

/-- The tag is in the form that the parameter names (R31, R63). -/
theorem unpackSp_inplace_mod (b : Byte) : (unpackSp .inplace b).toNat % 32 = 0 := by
  revert b
  decide

/-- Settles O38: the index has a rate, and the name field has 16 bytes. -/
theorem decodedHeaderIsInRange : Obligations.DecodedHeaderIsInRange := by
  intro buf s t r h hrom he hr hhdr
  obtain ⟨-, hz, hrate, rfl⟩ := exec_decode_hdr he hr hhdr
  have hlisted := indexToHz_romContents_eq_some_iff.mp (hrom ▸ hrate)
  have hindex : (unpackSri (byteAt buf 4)).toNat < 21 := (List.getElem?_eq_some_iff.mp hlisted).1
  refine ⟨Nat.le_of_lt_succ hindex, hlisted,
    (trimName_length_le _ _).trans (memRead_length_le _ _ _), fun hform => ?_, fun hform => ?_⟩
  · rw [parseHeader, hform]
    exact unpackSp_inplace_mod _
  · rw [parseHeader, hform, unpackSp_shifted_toNat]
    have := (byteAt buf 4).isLt
    omega

/-- The parsed Header depends on bytes 4 to 27 alone. -/
theorem parseHeader_congr {buf buf' : Bytes} (h : ∀ i, 4 ≤ i → i < 28 → buf[i]? = buf'[i]?)
    (p : Config) (hz : Word) : parseHeader p hz buf = parseHeader p hz buf' := by
  have hbyte (i : Nat) (hlow : 4 ≤ i) (hhigh : i < 28) : byteAt buf i = byteAt buf' i :=
    byteAt_congr _ _ _ (h i hlow hhigh)
  have hname : memRead buf 8 nameLen = memRead buf' 8 nameLen :=
    memRead_congr _ _ _ _ fun i hlow hhigh => h i (by omega) (by rw [nameLen_eq] at hhigh; omega)
  simp only [parseHeader, hname, hbyte, Nat.reduceLeDiff, Nat.reduceLT]

/-- DECODE's response depends on bytes 4 to 27 alone. -/
theorem decodeResponse_congr {buf buf' : Bytes} (h : ∀ i, 4 ≤ i → i < 28 → buf[i]? = buf'[i]?)
    (p : Config) (rom : Rom) : decodeResponse p rom buf = decodeResponse p rom buf' := by
  have hbyte : byteAt buf 4 = byteAt buf' 4 := byteAt_congr _ _ _ (h 4 (by omega) (by omega))
  simp only [decodeResponse, hbyte, parseHeader_congr h]

/-- Settles O36: past the length condition the outcome is the response's. -/
theorem decodeReadsOnlyTheStructuredRegion : Obligations.DecodeReadsOnlyTheStructuredRegion := by
  intro buf buf' s hlen hlen' h
  rw [exec_decode_eq_gate hlen, exec_decode_eq_gate hlen']
  simp only [decodeResponse_congr h]

/-- A new byte 4 with the same index changes the parsed Header's tag alone. -/
theorem parseHeader_set_tag {buf : Bytes} (hlen : 28 ≤ buf.length) {b : Byte}
    (hsri : unpackSri b = unpackSri (byteAt buf 4)) (p : Config) (hz : Word) :
    parseHeader p hz (buf.set 4 b) = { parseHeader p hz buf with sp := unpackSp p.spForm b } := by
  have hfour : byteAt (buf.set 4 b) 4 = b := by
    simp [byteAt, List.getD_eq_getElem?_getD, List.getElem?_set_self (show 4 < buf.length by omega)]
  have hother (i : Nat) (hi : 4 ≠ i) : (buf.set 4 b)[i]? = buf[i]? := List.getElem?_set_ne hi
  have hbyte (i : Nat) (hi : 4 ≠ i) : byteAt (buf.set 4 b) i = byteAt buf i :=
    byteAt_congr _ _ _ (hother i hi)
  have hname : memRead (buf.set 4 b) 8 nameLen = memRead buf 8 nameLen :=
    memRead_congr _ _ _ _ fun i hlow _ => hother i (by omega)
  simp only [parseHeader, hfour, hsri, hname, hbyte, ne_eq, Nat.reduceEqDiff, not_false_eq_true]

/-- A new byte 4 with the same index changes the response's tag alone. -/
theorem decodeResponse_set_tag {buf : Bytes} (hlen : 28 ≤ buf.length) {b : Byte}
    (hsri : unpackSri b = unpackSri (byteAt buf 4)) (p : Config) (rom : Rom) :
    decodeResponse p rom (buf.set 4 b) =
      { decodeResponse p rom buf with
        hdr := (decodeResponse p rom buf).hdr.map (fun h => { h with sp := unpackSp p.spForm b }) } := by
  have hindex : unpackSri (byteAt (buf.set 4 b) 4) = unpackSri (byteAt buf 4) :=
    congrArg Header.sri (parseHeader_set_tag hlen hsri p 0)
  cases hrate : indexToHz rom (unpackSri (byteAt buf 4)) with
  | none =>
    rw [decodeResponse_of_no_rate hrate, decodeResponse_of_no_rate (hindex ▸ hrate)]
    rfl
  | some hz =>
    rw [decodeResponse_of_rate hrate, decodeResponse_of_rate (hindex ▸ hrate),
      parseHeader_set_tag hlen hsri]
    rfl

/-- Settles O37: the two responses are one but for the tag. -/
theorem decodeDoesNotBranchOnTheTag : Obligations.DecodeDoesNotBranchOnTheTag := by
  intro buf b s hready hlen hsri
  exact ⟨_, _, exec_decode_of_length hlen hready,
    exec_decode_of_length (by rwa [List.length_set]) hready, decodeResponse_set_tag hlen hsri _ _⟩

end Sys2Proof.Machine

namespace Sys2Proof.Machine

/-! ## The laws of the pair -/

/-- A byte counted from an offset. -/
theorem byteAt_drop (buf : Bytes) (off i : Nat) : byteAt (buf.drop off) i = byteAt buf (off + i) := by
  simp [byteAt, List.getD_eq_getElem?_getD]

/-- Parsing a packet gives the index it was built for and the Header's fields, with the tag in the
parameter's form and the name padded and trimmed. -/
theorem parseHeader_buildPacket (p : Config) (idx : BitVec 5) (hz : Word) (h : Header)
    (payload : Bytes) :
    parseHeader p hz (buildPacket p idx h payload) =
      { sp := unpackSp p.spForm h.sp, sri := idx, hz := hz, spf := h.spf, fb2 := h.fb2, fb3 := h.fb3
        name := trimName p (padName h.name), fc := h.fc } := by
  have hregion (i : Nat) := (byteAt_drop (buildPacket p idx h payload) 4 i).symm
  have hcounter (i : Nat) := (byteAt_drop (buildPacket p idx h payload) 24 i).symm
  simp only [buildPacket_drop_tag] at hregion
  simp only [buildPacket_drop_counter] at hcounter
  have hname : memRead (buildPacket p idx h payload) 8 nameLen = padName h.name :=
    buildPacket_name p idx h payload
  rw [parseHeader, hname, hregion 0, hregion 1, hregion 2, hregion 3, hcounter 0, hcounter 1,
    hcounter 2, hcounter 3]
  simp only [byteAt, List.getD_cons_zero, unpackSp_pack0, unpackSri_pack0]
  congr 1
  exact le32_of_le32Bytes h.fc rfl

/-- DECODE of a packet built for an index with a rate responds with the parsed Header. -/
theorem decodeResponse_buildPacket {rom : Rom} {idx : BitVec 5} {hz : Word}
    (hrate : indexToHz rom idx = some hz) (p : Config) (h : Header) (payload : Bytes) :
    decodeResponse p rom (buildPacket p idx h payload) = { responseOf statusOk with
      hdr := some
        { sp := unpackSp p.spForm h.sp, sri := idx, hz := hz, spf := h.spf, fb2 := h.fb2, fb3 := h.fb3
          name := trimName p (padName h.name), fc := h.fc } } := by
  have hsri : unpackSri (byteAt (buildPacket p idx h payload) 4) = idx :=
    congrArg Header.sri (parseHeader_buildPacket p idx hz h payload)
  rw [decodeResponse_of_rate (hsri.symm ▸ hrate), parseHeader_buildPacket]

/-- ENCODE of a Header whose rate the ROM holds, on a ready block. -/
theorem exec_encode_of_rate {s : State} (hready : s.Ready) {h : Header} {idx : BitVec 5}
    (hfound : hzToIndex s.rom h.hz = some idx) (payload : Bytes) :
    exec (.encode h payload) s = .next (s.respond
      { responseOf statusOk with out := some (buildPacket s.params idx h payload) }) := by
  rw [exec_encode_ready s hready.1 hready.2, encodeResponse_of_rate hfound]

/-- A byte without bit 7 is unchanged by clearing it, and clearing it leaves none. -/
theorem and_0x7F_eq_self_iff (b : Byte) : b &&& 0x7F = b ↔ b.toNat < 0x80 := by
  revert b
  decide

theorem and_0x7F_toNat_lt (b : Byte) : (b &&& 0x7F).toNat < 0x80 := by
  revert b
  decide

/-- A name is unchanged by the first loop of TRIMNAME if no bit 7 is to be cleared. -/
theorem nameBytes_eq_self {p : NameHighbit} {raw : Bytes}
    (h : p = .clear → ∀ b ∈ raw, b.toNat < 0x80) : nameBytes p raw = raw := by
  cases p with
  | keep => rfl
  | clear =>
    have hbyte (b : Byte) (hb : b ∈ raw) : b &&& 0x7F = b := (and_0x7F_eq_self_iff b).mpr (h rfl b hb)
    exact (List.map_congr_left hbyte).trans (List.map_id raw)

/-- With CLEAR no byte of a trimmed name has bit 7 set. -/
theorem trimName_toNat_lt {p : Config} (hclear : p.nameHighbit = .clear) {raw : Bytes} {b : Byte}
    (h : b ∈ trimName p raw) : b.toNat < 0x80 := by
  have hmem : b ∈ nameBytes p.nameHighbit raw := (List.rdropWhile_prefix _ _).subset h
  rw [hclear] at hmem
  obtain ⟨b', -, rfl⟩ := List.mem_map.mp hmem
  exact and_0x7F_toNat_lt b'

/-- TRIMNAME answers the part before a run of trim-set bytes that does not itself end in one. -/
theorem trimName_of_append {p : Config} {raw kept run : Bytes}
    (hraw : nameBytes p.nameHighbit raw = kept ++ run) (hrun : ∀ b ∈ run, b ∈ p.trimSet)
    (hkept : ∀ b, kept.getLast? = some b → b ∉ p.trimSet) : trimName p raw = kept := by
  have hdrop : (kept ++ run).rdropWhile (fun b => decide (b ∈ p.trimSet)) =
      kept.rdropWhile (fun b => decide (b ∈ p.trimSet)) := by
    rw [List.rdropWhile, List.reverse_append, List.dropWhile_append_of_pos (by simpa using hrun)]
    rfl
  rw [trimName, hraw, hdrop, List.rdropWhile_eq_self_iff]
  exact fun hne hmem => hkept _ (List.getLast?_eq_some_getLast hne) (of_decide_eq_true hmem)

/-- PADNAME of a name that fits (R65). -/
theorem padName_of_length_le {name : Bytes} (h : name.length ≤ 16) :
    padName name = name ++ zeros (16 - name.length) := by
  rw [padName_eq, List.take_of_length_le h]

/-- The names that a trip through the name field gives back. -/
theorem trimName_padName_iff {p : Config} (hzero : 0 ∈ p.trimSet) (name : Bytes) :
    trimName p (padName name) = name ↔
      name.length ≤ 16 ∧ (∀ b, name.getLast? = some b → b ∉ p.trimSet) ∧
        (p.nameHighbit = .clear → ∀ b ∈ name, b.toNat < 0x80) := by
  constructor
  · intro h
    refine ⟨?_, fun b hb => ?_, fun hclear b hb => ?_⟩
    · have := trimName_length_le p (padName name)
      rwa [h, padName_length] at this
    · exact trimName_getLast?_notMem (h.symm ▸ hb)
    · exact trimName_toNat_lt hclear (h.symm ▸ hb)
  · rintro ⟨hlen, hlast, hclear⟩
    have hrun : ∀ b ∈ zeros (16 - name.length), b = 0 := fun b => List.eq_of_mem_replicate
    refine trimName_of_append ?_ (fun b hb => hrun b hb ▸ hzero) hlast
    rw [padName_of_length_le hlen]
    refine nameBytes_eq_self fun hform b hb => ?_
    obtain hb | hb := List.mem_append.mp hb
    · exact hclear hform b hb
    · rw [hrun b hb]
      decide

/-- Settles O44: DECODE parses the packet back, and the name's condition is that of its field. -/
theorem encodeThenDecode : Obligations.EncodeThenDecode := by
  refine ⟨fun h payload s i hrom hready hfound => ?_, fun p name hzero => trimName_padName_iff hzero name⟩
  refine ⟨_, exec_encode_of_rate hready hfound payload, ?_⟩
  have hlen : 28 ≤ (buildPacket s.params i h payload).length := by
    rw [buildPacket_length]
    exact Nat.le_add_right 28 _
  rw [exec_decode_of_length hlen hready,
    decodeResponse_buildPacket (firstMatch_of_hzToIndex hfound).1, unpackSp_eq]
  rfl

/-- A byte within the buffer. -/
theorem getElem?_eq_byteAt {buf : Bytes} {i : Nat} (h : i < buf.length) :
    buf[i]? = some (byteAt buf i) := by
  simp [byteAt, List.getD_eq_getElem?_getD, h]

/-- The bytes from an offset within the buffer on. -/
theorem drop_eq_byteAt_cons {buf : Bytes} {i : Nat} (h : i < buf.length) :
    buf.drop i = byteAt buf i :: buf.drop (i + 1) := by
  rw [List.drop_eq_getElem_cons h]
  simp [byteAt, List.getD_eq_getElem?_getD, h]

/-- Packing a parsed Header's counter gives its four bytes back. -/
theorem le32Bytes_parseHeader {buf : Bytes} (hlen : 28 ≤ buf.length) (p : Config) (hz : Word) :
    le32Bytes (parseHeader p hz buf).fc = (buf.drop 24).take 4 := by
  rw [drop_eq_byteAt_cons (by omega), drop_eq_byteAt_cons (by omega), drop_eq_byteAt_cons (by omega),
    drop_eq_byteAt_cons (by omega)]
  exact le32Bytes_le32 _ _ _ _

/-- Padding a trimmed name field puts zeros in place of the run that was trimmed. -/
theorem padName_trimName {p : Config} {raw run : Bytes} (hlen : raw.length = 16)
    (hraw : nameBytes p.nameHighbit raw = trimName p raw ++ run) :
    padName (trimName p raw) = trimName p raw ++ zeros run.length := by
  have hlengths := congrArg List.length hraw
  rw [nameBytes_eq_map, List.length_map, List.length_append] at hlengths
  rw [padName_of_length_le (by omega), show 16 - (trimName p raw).length = run.length by omega]

/-- Settles O45: ENCODE finds the index that DECODE read, and each field of the packet is the buffer's. -/
theorem decodeThenEncode : Obligations.DecodeThenEncode := by
  intro buf s t r h hrom hready hlen he hr hhdr
  obtain ⟨rfl, hz, hrate, rfl⟩ := exec_decode_hdr he hr hhdr
  have hfound : hzToIndex s.rom hz = some (unpackSri (byteAt buf 4)) := by
    rw [hrom] at hrate ⊢
    exact hzToIndex_of_indexToHz hrate
  obtain ⟨run, hraw, hrun, hkept⟩ :=
    trimNameRemovesTheTrailingRun.1 s.params ((buf.drop 8).take 16)
  have hname : ((buf.drop 8).take 16).length = 16 := by simp; omega
  obtain ⟨hfour, hfive, hsix, hseven⟩ := buildPacket_getElem? (s.respond r).params
    (unpackSri (byteAt buf 4)) (parseHeader s.params hz buf) (buf.drop 28)
  have hencode := exec_encode_of_rate (s := s.respond r) (h := parseHeader s.params hz buf) hready
    hfound (buf.drop 28)
  refine ⟨_, _, run, hencode, buildPacket_take_tag _ _ _ _, fun hform => ?_, fun hform => ?_, ?_, ?_,
    ?_, hraw, hrun, hkept, ?_, ?_, buildPacket_drop _ _ _ _⟩
  · rw [hfour, getElem?_eq_byteAt (by omega), parseHeader, hform, pack0_unpack_inplace]
  · rw [hfour, parseHeader, hform, pack0_unpack_shifted]
    rfl
  · rw [hfive, getElem?_eq_byteAt (by omega), parseHeader]
  · rw [hsix, getElem?_eq_byteAt (by omega), parseHeader]
  · rw [hseven, getElem?_eq_byteAt (by omega), parseHeader]
  · rw [buildPacket_name]
    exact padName_trimName hname ((nameBytes_eq_map _ _).trans hraw)
  · rw [buildPacket_counter, le32Bytes_parseHeader hlen]

end Sys2Proof.Machine

namespace Sys2Proof.Machine

/-! ## Keys and entries -/

/-- Settles O48: the 0 leaves the entry, against which 1 is lower. -/
theorem wrapIsReportedAsAnomaly : Obligations.WrapIsReportedAsAnomaly := by
  intro h0 h1 s hready hfind hzero hone
  have hc : h1.fc ≠ 0 := by rw [hone]; decide
  have hfirst := exec_observe_ready s hready.1 hready.2 h0
  rw [observeCounter_of_zero hzero] at hfirst
  refine ⟨_, _, _, hfirst, rfl, rfl, exec_observe_ready _ hready.1 hready.2 h1,
    observeCounter_output_of_find hc hfind, ?_⟩
  rw [hone]
  rfl

/-- The key of a name is its base-256 number with one more digit per byte. -/
theorem nameKey_concat (name : Bytes) (b : Byte) :
    nameKey (name ++ [b]) = nameKey name * 256 + b.toNat := by
  simp [nameKey]

/-- The leading digit 1 keeps a key from being 0. -/
theorem nameKey_pos (name : Bytes) : 0 < nameKey name := by
  induction name using List.reverseRecOn with
  | nil => decide
  | append_singleton name b ih => rw [nameKey_concat]; omega

/-- Different names have different keys: the last digits agree, and so do the keys before them. -/
theorem nameKey_injective : Function.Injective nameKey := by
  intro name
  induction name using List.reverseRecOn with
  | nil =>
    intro name' h
    obtain rfl | ⟨xs, x, rfl⟩ := name'.eq_nil_or_concat
    · rfl
    · have hpos := nameKey_pos xs
      have hone : nameKey [] = 1 := rfl
      rw [List.concat_eq_append, nameKey_concat] at h
      omega
  | append_singleton name b ih =>
    intro name' h
    obtain rfl | ⟨xs, x, rfl⟩ := name'.eq_nil_or_concat
    · have hpos := nameKey_pos name
      have hone : nameKey [] = 1 := rfl
      rw [nameKey_concat] at h
      omega
    · rw [List.concat_eq_append, nameKey_concat, nameKey_concat] at h
      have hb := b.isLt
      have hx := x.isLt
      rw [List.concat_eq_append, ih (show nameKey name = nameKey xs by omega),
        BitVec.eq_of_toNat_eq (show b.toNat = x.toNat by omega)]

/-- Settles O51: the numbering of names is injective. -/
theorem perNameKeysAreSeparate : Obligations.PerNameKeysAreSeparate :=
  fun _ _ => nameKey_injective.eq_iff

/-- Settles O52: of the ways of a step only an asserted reset and an executed OBSERVE write the table. -/
theorem entryLifetime : Obligations.EntryLifetime := by
  intro s t hstep
  refine ⟨fun k hchanged => ?_, fun c h rest hready hi hd hc => ?_, fun rest k hi => ?_⟩
  · cases stepCase_of_step hstep with
    | idle | releaseReset | notAccepted | illegal => exact absurd rfl hchanged
    | assertReset rest hi => exact .inl ⟨rest, hi, Trk.find_nil k⟩
    | executes c rest i t hi ha hd he heffect =>
      cases heffect with
      | responds | truncated => exact absurd rfl hchanged
      | tracks h hinstr hc r =>
        have hk : keyOf s.params.keyFn h = k := by
          by_contra hne
          exact hchanged (Trk.find_store_other s.trk _ k h.fc (Ne.symm hne))
        exact .inr ⟨c, h, rest, hi, hinstr ▸ hd, hc, hk, hk ▸ Trk.find_store_same s.trk _ h.fc⟩
  · have hexec := exec_observe_ready (s.withInputs rest) hready.1 hready.2 h
    cases ((step_legal s c rest _ hi hd).trans hexec).symm.trans hstep
    exact (observeCounter_find h _ _).trans (if_pos ⟨hc, rfl⟩)
  · cases (step_reset s true rest hi).symm.trans hstep
    exact Trk.find_nil k

/-! ## Idempotence -/

/-- On a ready block a command other than OBSERVE always gives the same response, or always takes the same
fault, for given parameters and ROM. -/
theorem exec_codec_uniform {i : Instr} (hobs : ∀ h, i ≠ .observe h) (p : Config) (rom : Rom) :
    (∃ r, ∀ s : State, s.Ready → s.params = p → s.rom = rom → exec i s = .next (s.respond r)) ∨
      ∃ f, ∀ s : State, s.Ready → exec i s = .next (s.takeFault f) := by
  cases i with
  | lkhz idx =>
    exact .inl ⟨_, fun s hready _ hrom => hrom ▸ exec_lkhz_ready s hready.1 hready.2 idx⟩
  | lkidx hz =>
    exact .inl ⟨_, fun s hready _ hrom => hrom ▸ exec_lkidx_ready s hready.1 hready.2 hz⟩
  | encode h payload =>
    exact .inl ⟨_, fun s hready hparams hrom =>
      hparams ▸ hrom ▸ exec_encode_ready s hready.1 hready.2 h payload⟩
  | decode buf =>
    by_cases hlen : 28 ≤ buf.length
    · exact .inl ⟨_, fun s hready hparams hrom => hparams ▸ hrom ▸ exec_decode_of_length hlen hready⟩
    · exact .inr ⟨_, fun s hready => shortBufferFaults buf s hready (Nat.not_le.mp hlen)⟩
  | observe h => exact absurd rfl (hobs h)

/-- A repeated OBSERVE compares its counter with itself (R152). -/
theorem observeCounter_again {h : Header} (hc : h.fc ≠ 0) (s : State) :
    (observeCounter h (observeCounter h s)).output =
      some (.response { responseOf statusOk with diag := .info 0 }) := by
  have hfind : (observeCounter h s).trk.find (keyOf (observeCounter h s).params.keyFn h) =
      some h.fc := by
    rw [observeCounter_params, observeCounter_find, if_pos ⟨hc, rfl⟩]
  rw [observeCounter_output_of_find hc hfind, if_neg (Nat.lt_irrefl _), BitVec.sub_self]
  rfl

/-- Settles O54: a command other than OBSERVE has one outcome for the ROM and the parameters, which its
run leaves. -/
theorem idempotentButForObserve : Obligations.IdempotentButForObserve := by
  refine ⟨fun i s t hobs hready he hready' => ?_,
    fun i s s' t t' hobs hready hready' hparams hrom he he' => ?_, fun h s hready hc => ?_⟩
  · obtain ⟨r, hr⟩ | ⟨f, hf⟩ := exec_codec_uniform hobs s.params s.rom
    · cases (hr s hready rfl rfl).symm.trans he
      exact hr _ hready' rfl rfl
    · cases (hf s hready).symm.trans he
      cases hready'.1
  · obtain ⟨r, hr⟩ | ⟨f, hf⟩ := exec_codec_uniform hobs s.params s.rom
    · cases (hr s hready rfl rfl).symm.trans he
      cases (hr s' hready' hparams.symm hrom.symm).symm.trans he'
      rfl
    · cases (hf s hready).symm.trans he
      cases (hf s' hready').symm.trans he'
      rfl
  · have hready' := observeCounter_ready hready h
    refine ⟨_, _, _, exec_observe_ready s hready.1 hready.2 h,
      exec_observe_ready _ hready'.1 hready'.2 h, observeCounter_again hc s, rfl, ?_⟩
    rw [observeCounter_find, observeCounter_params, if_pos ⟨hc, rfl⟩]

end Sys2Proof.Machine
